-- ==== Sys2Proof/Word.lean ====
section
/-! DEFINITION. The widths of the block's values (spec 00_scope.md R8, R10). A value is a bit vector
only where the spec treats it as bits; counts and shift amounts are naturals. -/

namespace Sys2Proof

/-- `u32`, the datapath and operand width `W` = 32 (R8, R10). -/
abbrev Word := BitVec 32

/-- `u6`, the result width `RW` = 6, for values 0 to 32 (R8). -/
abbrev U6 := BitVec 6

/-- The command word `{op[1:0], operand[31:0]}` of format `CMD34`, the one format there is (R51). -/
abbrev CommandWord := BitVec 34

end Sys2Proof
end

