-- ==== Sys2Proof/Syntax.lean ====
section
/-! DEFINITION. The commands of the command port (30_encoding.md R50 to R56), the vector on the input
ports (10_state.md R26) and the lines of a host program (30_encoding.md R57, R58). -/

namespace Sys2Proof

/-- One constructor per row of the opcode table (R52). Every operand value is legal for every op (R52),
so a term of this type is well-formed as it stands. -/
inductive Instr where
  /-- `ctz`: count the trailing zero bits of `x` (R72). -/
  | ctz (x : Word)
  /-- `cto`: count the trailing one bits of `x` (R73). -/
  | cto (x : Word)
  /-- `gap`: the longest binary gap of `N`, read from the operand as R53 says (R90). -/
  | gap (v : Word)
  /-- `.op3`: the reserved op 0b11, accepted and answered with ILLEGAL_OP (R55, R56). -/
  | op3 (v : Word)
deriving DecidableEq, Repr

/-- The names a program line can use for a command (R57). -/
inductive Mnemonic where
  | ctz | cto | gap | op3
deriving DecidableEq, Repr

/-- The command that a mnemonic and an operand name (R57). -/
def Mnemonic.instr : Mnemonic → Word → Instr
  | .ctz, v => .ctz v
  | .cto, v => .cto v
  | .gap, v => .gap v
  | .op3, v => .op3 v

/-- The mnemonic of a command. -/
def Instr.mnemonic : Instr → Mnemonic
  | .ctz _ => .ctz
  | .cto _ => .cto
  | .gap _ => .gap
  | .op3 _ => .op3

/-- The operand of a command, bits 31:0 of its word (R51). -/
def Instr.operand : Instr → Word
  | .ctz x => x
  | .cto x => x
  | .gap v => v
  | .op3 v => v

/-- What the host drives on the input ports in one cycle (R26). `clk` is not a field: one step is one
rising edge (R13). Every port is two-valued (R26; 92_eei_decisions.md D28). -/
structure Input where
  rst        : Bool
  cmdValid   : Bool
  cmdOp      : BitVec 2
  cmdOperand : Word
deriving DecidableEq, Repr

/-- The lines that drive the input ports, pseudo-instructions expanded (R57).
`drive` is the model's own line, for what the host may do (R143) and R57's lines cannot say, such as
withdrawing an offer (DESIGN CHOICE, log 2). -/
inductive HostLine where
  /-- Offer a command until it is accepted. -/
  | command (i : Instr)
  /-- Drive `rst = 1` for one cycle. -/
  | reset
  /-- Drive `cmd_valid = 0` for `k` cycles. -/
  | idle (k : Nat)
  /-- Drive `cmd_valid = 0` until `rsp_valid = 1` and `cmd_ready = 1`. -/
  | wait
  /-- Drive this vector for one cycle, whatever the block does. -/
  | drive (inp : Input)
deriving DecidableEq, Repr

/-- A line as it is written (R57, R58). A literal is an integer: the decimal, hexadecimal and binary
spellings of one number are one literal. -/
inductive SourceLine where
  | command (m : Mnemonic) (v : Int)
  | reset
  | idle (k : Nat)
  | wait
  | nop
  | run (m : Mnemonic) (v : Int)
deriving DecidableEq, Repr

end Sys2Proof
end

