-- ==== Sys2Proof/WellFormed.lean ====
section
/-! DEFINITION. The checks on what a host writes. An `Instr` needs none: every operand value is legal
for every op (30_encoding.md R52). -/

namespace Sys2Proof

/-- A literal stands for an operand: a natural below 2^32, or a negative number from -2^31 (R57). -/
def literalWellFormed (v : Int) : Bool :=
  decide (-2 ^ 31 ≤ v) && decide (v < 2 ^ 32)

/-- A source line is well-formed when its literal is (R57, R58). -/
def SourceLine.wellFormed : SourceLine → Bool
  | .command _ v => literalWellFormed v
  | .run _ v => literalWellFormed v
  | .reset => true
  | .idle _ => true
  | .wait => true
  | .nop => true

/-- A source program is well-formed when each of its lines is. -/
def programWellFormed (p : List SourceLine) : Bool :=
  p.all SourceLine.wellFormed

/-- A number is a command word when it has at most 34 bits, the one length there is (R51). -/
def commandWordWellFormed (w : Nat) : Bool :=
  decide (w < 2 ^ 34)

end Sys2Proof
end

