-- ==== Sys2Proof/Decode.lean ====
section
/-! DEFINITION. From command words to commands and back (30_encoding.md R51 to R55, R59). Decoding is
total on the 34-bit words of the command port (R54); on a number of unknown width it refuses, by name,
whatever the port cannot carry. -/

namespace Sys2Proof

/-- Bits 33:32 of a command word (R51). -/
def CommandWord.op (w : CommandWord) : BitVec 2 := w.extractLsb' 32 2

/-- Bits 31:0 of a command word (R51). -/
def CommandWord.operand (w : CommandWord) : Word := w.extractLsb' 0 32

/-- The concatenation `{op, operand}`, op the high part (R51). -/
def CommandWord.ofFields (op : BitVec 2) (operand : Word) : CommandWord := op ++ operand

/-- Decoding by `op` alone (R52, R54). The last case is op 0b11 and nothing else. -/
def decodeFields (op : BitVec 2) (operand : Word) : Instr :=
  if op = 0b00#2 then .ctz operand
  else if op = 0b01#2 then .cto operand
  else if op = 0b10#2 then .gap operand
  else .op3 operand

/-- The command that a command word names (R52). -/
def decodeWord (w : CommandWord) : Instr := decodeFields w.op w.operand

/-- Why a number is no command. -/
inductive DecodeError where
  /-- It has a bit above bit 33, and the command word has 34 bits (R51). -/
  | widerThanCommandWord
deriving DecidableEq, Repr

/-- Decoding of any number: its 34-bit word, or a refusal by name. -/
def decode (w : Nat) : Except DecodeError Instr :=
  if commandWordWellFormed w then .ok (decodeWord (BitVec.ofNat 34 w))
  else .error .widerThanCommandWord

/-- The op field of a command (R52). -/
def Instr.op : Instr → BitVec 2
  | .ctz _ => 0b00#2
  | .cto _ => 0b01#2
  | .gap _ => 0b10#2
  | .op3 _ => 0b11#2

/-- The command word of a command (R51, R57). -/
def encode (i : Instr) : CommandWord := CommandWord.ofFields i.op i.operand

/-- A row of the opcode table: a word is the row's when `word & mask = match` (R52). -/
structure OpcodeRow where
  mnemonic : Mnemonic
  pattern  : CommandWord
  mask     : CommandWord
deriving DecidableEq, Repr

/-- The table of R52. -/
def opcodeTable : List OpcodeRow :=
  [ ⟨.ctz, 0x0_0000_0000#34, 0x3_0000_0000#34⟩,
    ⟨.cto, 0x1_0000_0000#34, 0x3_0000_0000#34⟩,
    ⟨.gap, 0x2_0000_0000#34, 0x3_0000_0000#34⟩,
    ⟨.op3, 0x3_0000_0000#34, 0x3_0000_0000#34⟩ ]

/-- Whether a word is one of the row's words (R52). -/
def OpcodeRow.accepts (r : OpcodeRow) (w : CommandWord) : Bool := (w &&& r.mask) == r.pattern

/-- The instruction the decoder reads from an instruction whose bits are `w`, `nbits` of them given and
every higher bit 0. The port has no bytes (20_memory.md R41), so the bits of `w` are the bits of the
command word as they stand. -/
def decodeTableWord (nbits w : Nat) : Option Instr :=
  match decode (w % 2 ^ nbits) with
  | .ok i => some i
  | .error _ => none

end Sys2Proof
end

