-- ==== Sys2Proof/Config.lean ====
section
/-! DEFINITION. The fixed parameters of the block (00_scope.md R8) and its free values: what the
registers hold at power-up, which the spec leaves unspecified (10_state.md R34;
93_implementation_defined.md U1). A free value has no body, so no proof can rest on one. -/

namespace Sys2Proof.Config

/-- The number of iterations that bounds any scan of a 32-bit cursor: each shifts out at least one bit.
The model's own bound, which makes the loop of R93 structural. -/
def scanFuel : Nat := 32

/-- The most edges from an offer to its response (R141, R142). -/
def maxLatency : Nat := 17

/-- FSM at the `n`th power-up, as its 1-bit code (R34). -/
opaque powerUpFsm : Nat → BitVec 1

/-- DONE at the `n`th power-up (R34). -/
opaque powerUpDone : Nat → BitVec 1

/-- RESULT at the `n`th power-up (R34). -/
opaque powerUpResult : Nat → U6

/-- STATUS at the `n`th power-up, as its 2-bit code, the reserved one included (R34). -/
opaque powerUpStatus : Nat → BitVec 2

/-- CUR at the `n`th power-up (R34). -/
opaque powerUpCur : Nat → Word

/-- MAXG at the `n`th power-up (R34). -/
opaque powerUpMaxg : Nat → U6

end Sys2Proof.Config
end

