-- ==== Sys2Proof/Machine/State.lean ====
section
/-! DEFINITION. What the machine holds: the six registers of 10_state.md R22, which are all the storage
the block has, and the host's remaining program, which decides what is on the input ports. -/

namespace Sys2Proof.Machine

/-- Register FSM: whether a `gap` command is in progress (R22, R23). -/
inductive Fsm where
  /-- Code 0: no scan in progress, a command can be accepted. -/
  | idle
  /-- Code 1: the scan loop of a `gap` command is running. -/
  | scan
deriving DecidableEq, Repr

/-- Register STATUS (R22; 60_exceptions.md R111). -/
inductive Status where
  /-- 0b00: the command completed. -/
  | ok
  /-- 0b01: `gap` with N < 1. -/
  | invalidArgument
  /-- 0b10: the reserved op. -/
  | illegalOp
  /-- 0b11: reserved, never produced; only a power-up can draw it (R34). -/
  | reserved
deriving DecidableEq, Repr

/-- Why a step could stop with a fault: for no reason. The block does not trap (60_exceptions.md R117),
its step function is total (10_state.md R33), and it has no error but the status codes (R110, R113). The
type is closed and has no constructor, so that no step can fault. -/
inductive Fault where
deriving DecidableEq, Repr

/-- Why a step could be refused. -/
inductive Refusal where
  /-- Raised by an arm of exec whose instruction has no meaning yet, and by nothing else (safe: the model
  stops where the hardware goes on). No arm raises it. -/
  | notModelled (mnemonic : String)
deriving DecidableEq, Repr

/-- The state of one CORE (R22) beside the host that drives it. -/
structure State where
  /-- FSM, 1 bit (R22, R23). -/
  fsm    : Fsm
  /-- DONE, 1 bit: the response registers hold the last accepted command's response (R22, R30). -/
  done   : Bool
  /-- RESULT, 6 bits, unsigned (R22). -/
  result : U6
  /-- STATUS, 2 bits (R22). -/
  status : Status
  /-- CUR, 32 bits: the scan cursor (R22, R24). -/
  cur    : Word
  /-- MAXG, 6 bits, unsigned: the longest zero run so far (R22, R25). -/
  maxg   : U6
  /-- The lines of the host's program not yet used up, the current one first (R57). It is the host's, not
  the block's: no output depends on it. -/
  host   : List HostLine
deriving DecidableEq, Repr

/-- RESET_STATE (70_reset_and_hazards.md R130), with a host that has no line to run. -/
def State.reset : State :=
  { fsm := .idle, done := false, result := 0, status := .ok, cur := 0, maxg := 0, host := [] }

end Sys2Proof.Machine
end

