-- ==== Sys2Proof/Machine/Flags.lean ====
section
/-! DEFINITION. The codes of FSM and STATUS (10_state.md R22; 60_exceptions.md R111), the output ports
(10_state.md R28) and what a host may conclude from them (10_state.md R29; 60_exceptions.md R114). The
block has no condition codes; DONE and STATUS are the closest thing to flags (10_state.md R30). -/

namespace Sys2Proof.Machine

/-- The 1-bit code of FSM (R22). -/
def Fsm.code : Fsm → BitVec 1
  | .idle => 0#1
  | .scan => 1#1

/-- FSM from its code (R22). -/
def Fsm.ofCode (c : BitVec 1) : Fsm := if c = 0#1 then .idle else .scan

/-- The 2-bit code of STATUS (R111). -/
def Status.code : Status → BitVec 2
  | .ok => 0b00#2
  | .invalidArgument => 0b01#2
  | .illegalOp => 0b10#2
  | .reserved => 0b11#2

/-- STATUS from its code (R111). -/
def Status.ofCode (c : BitVec 2) : Status :=
  if c = 0b00#2 then .ok
  else if c = 0b01#2 then .invalidArgument
  else if c = 0b10#2 then .illegalOp
  else .reserved

/-- The output ports during a cycle (R28). -/
structure Outputs where
  cmdReady  : Bool
  rspValid  : Bool
  rspResult : U6
  rspStatus : BitVec 2
deriving DecidableEq, Repr

/-- Every output is a function of the registers alone (R28). -/
def State.outputs (s : State) : Outputs :=
  { cmdReady := s.fsm == .idle
    rspValid := s.done
    rspResult := s.result
    rspStatus := s.status.code }

/-- The errors a response can carry (R110, R111). -/
inductive ErrorKind where
  | invalidArgument
  | illegalOp
deriving DecidableEq, Repr

/-- What the response port tells the host (R29, R114): a response with STATUS other than OK is an error
value and has no number in it. -/
inductive Response where
  /-- DONE = 0: no response to read (R29). -/
  | pending
  /-- DONE = 1 and STATUS = OK. -/
  | answer (v : U6)
  /-- DONE = 1 and STATUS an error code; the filler in RESULT is not exposed (R114). -/
  | error (e : ErrorKind)
  /-- DONE = 1 and STATUS = 0b11, which no rule produces (R111). -/
  | reservedStatus
deriving DecidableEq, Repr

/-- The response valid in a state (R29, R114). -/
def State.response (s : State) : Response :=
  if s.done then
    match s.status with
    | .ok => .answer s.result
    | .invalidArgument => .error .invalidArgument
    | .illegalOp => .error .illegalOp
    | .reserved => .reservedStatus
  else .pending

end Sys2Proof.Machine
end

