-- ==== Sys2Proof/Machine/Operands.lean ====
section
/-! DEFINITION. How a command reads its operand (30_encoding.md R53; 41_binary_gap_scanner.md R91). -/

namespace Sys2Proof.Machine

/-- `sval(v)`: the two's-complement value of a 32-bit pattern (00_scope.md R11). -/
def sval (v : Word) : Int :=
  if v.getLsbD 31 then (v.toNat : Int) - 2 ^ 32 else (v.toNat : Int)

/-- `valid(v)`: the operand of `gap` names an N of at least 1 (R91), by the test of R95. -/
def valid (v : Word) : Bool := v != 0 && !v.getLsbD 31

/-- The operand that a literal stands for: a natural's own pattern, or the two's-complement pattern of
a negative number (30_encoding.md R57). -/
def literalOperand (v : Int) : Word := BitVec.ofInt 32 v

end Sys2Proof.Machine
end

