-- ==== Sys2Proof/Machine/Ops.lean ====
section
/-! DEFINITION. The operations every meaning is written over: the shift and the two combinational units
(00_scope.md R12; 40_bit_primitives.md R70, R71), the updates of the response and scan registers, reset
and power-up. -/

namespace Sys2Proof.Machine

/-- `shr(v, s)`: logical right shift by a natural, 0 from a shift of 32 on (R12). -/
def shr (v : Word) (s : Nat) : Word := v >>> s

/-- `ctz32(x)`: the lowest bit set in `x`, or 32 when none is (R70). -/
def ctz32 (x : Word) : Nat := ((List.range 32).find? fun i => x.getLsbD i).getD 32

/-- `cto32(x) = ctz32(~x)` (R71). -/
def cto32 (x : Word) : Nat := ctz32 (~~~x)

/-- Shift out the low zero run: steps 2 and 5c of the scan (41_binary_gap_scanner.md R93). -/
def stripZeros (v : Word) : Word := shr v (ctz32 v)

/-- Shift out the low one run: steps 3 and 5d of the scan (R93). -/
def stripOnes (v : Word) : Word := shr v (cto32 v)

/-- Shift out the low zero run and the one run above it: steps 2 and 3, or 5c and 5d (R93). -/
def stripRuns (v : Word) : Word := stripOnes (stripZeros v)

/-- Give a response: every edge that sets DONE writes STATUS and RESULT with it (10_state.md R30). The
block is IDLE afterwards; CUR and MAXG hold. -/
def State.respond (r : U6) (st : Status) (s : State) : State :=
  { s with result := r, status := st, done := true, fsm := .idle }

/-- Report an error (60_exceptions.md R110, R111, R117): the code in STATUS, the filler 0 in RESULT, no
state saved, no vector, CUR and MAXG as they were. The one operation by which a command fails; there is
no return from it, since the next command just follows (R118). -/
def State.respondError (st : Status) (s : State) : State := s.respond 0 st

/-- Start a scan at this cursor (41_binary_gap_scanner.md R95, steps 3 and 4). RESULT and STATUS keep the
previous response. -/
def State.startScan (cursor : Word) (s : State) : State :=
  { s with cur := cursor, maxg := 0, done := false, fsm := .scan }

/-- Write the scan registers, FSM staying as it is (R96). -/
def State.setScan (cursor : Word) (longest : U6) (s : State) : State :=
  { s with cur := cursor, maxg := longest }

/-- Replace the host's remaining lines; no register changes. -/
def State.withHost (lines : List HostLine) (s : State) : State := { s with host := lines }

/-- A reset edge: every register takes its value of RESET_STATE; the host keeps its lines (R130). -/
def State.enterReset (s : State) : State := State.reset.withHost s.host

/-- The block at its `n`th power-up, before any reset edge: every register holds a free value
(10_state.md R34). -/
def State.powerUp (n : Nat) (lines : List HostLine) : State :=
  { fsm := Fsm.ofCode (Config.powerUpFsm n)
    done := Config.powerUpDone n == 1#1
    result := Config.powerUpResult n
    status := Status.ofCode (Config.powerUpStatus n)
    cur := Config.powerUpCur n
    maxg := Config.powerUpMaxg n
    host := lines }

end Sys2Proof.Machine
end

