-- ==== Sys2Proof/Machine/BinaryGap.lean ====
section
/-! DEFINITION. `gap` (41_binary_gap_scanner.md): the accepting edge (R95), the scan edges (R96, R97), and
beside them the function they are to compute (R92) and the algorithm they follow (R93). -/

namespace Sys2Proof.Machine

/-- `AcceptGAP` (R95): an invalid operand is answered at once, a valid one starts the scan. -/
def execGap (v : Word) (s : State) : Host.Outcome State Fault Refusal :=
  if valid v then .next (s.startScan (stripRuns v))
  else .next (s.respondError .invalidArgument)

/-- `max(a, b)` with a 6-bit `a`: step 5b (R96). -/
def maxRun (a : U6) (b : Nat) : U6 := BitVec.ofNat 6 (max a.toNat b)

/-- `IterateGAP` (R96): one iteration of the loop, steps 5a to 5d. -/
def iterateGap (s : State) : State :=
  s.setScan (stripRuns s.cur) (maxRun s.maxg (ctz32 s.cur))

/-- `CompleteGAP` (R97): step 6, answer MAXG. -/
def completeGap (s : State) : State := s.respond s.maxg .ok

/-- What an edge does while FSM = SCAN (10_state.md R33). -/
def scanEdge (s : State) : State := if s.cur = 0 then completeGap s else iterateGap s

/-- Bits `j-1..i` of `n` are a binary gap: zeros with a one bit just below and just above (R92). -/
def isGap (n : Word) (i j : Nat) : Bool :=
  decide (1 ≤ i) && decide (i < j) && n.getLsbD (i - 1) && n.getLsbD j &&
    (List.range (j - i)).all fun k => !n.getLsbD (i + k)

/-- The binary gaps of `n` as pairs `(i, j)`, from the low end up (R92). -/
def gaps (n : Word) : List (Nat × Nat) :=
  (List.range 32).flatMap fun i =>
    ((List.range 32).filter fun j => isGap n i j).map fun j => (i, j)

/-- The lengths `j - i` of the gaps of `n`, from the low end up (R92). -/
def gapLengths (n : Word) : List Nat := (gaps n).map fun p => p.2 - p.1

/-- `g(n)`: the number of binary gaps (R92). -/
def gapCount (n : Word) : Nat := (gaps n).length

/-- The largest of some lengths, 0 for none. -/
def longestOf (l : List Nat) : Nat := l.foldl max 0

/-- `LBG(n)`: the largest length of a binary gap, or 0 (R92). -/
def lbg (n : Word) : Nat := longestOf (gapLengths n)

/-- The loop of R93, step 5, with a bound on its iterations. -/
def lbgLoop : Nat → Word → Nat → Nat
  | 0, _, longest => longest
  | fuel + 1, n, longest =>
    if n = 0 then longest
    else lbgLoop fuel (stripRuns n) (max longest (ctz32 n))

/-- `lbg_alg(n)` (R93). -/
def lbgAlg (n : Word) : Nat := lbgLoop Config.scanFuel (stripRuns n) 0

/-- The operation as its caller sees it (R90, R114): a number, or InvalidArgument and no number. -/
def longestBinaryGap (v : Word) : Except ErrorKind Nat :=
  if valid v then .ok (lbg v) else .error .invalidArgument

/-- The cursor after the accepting edge of `n` and `k` iterations (R95, R96). -/
def scanCursor (n : Word) : Nat → Word
  | 0 => stripRuns n
  | k + 1 => stripRuns (scanCursor n k)

/-- What is left of `n` when its `k`th gap is the next: `n` with every bit below that gap shifted out, and
0 when `k` is past the last gap (R98). -/
def cursorAtGap (n : Word) (k : Nat) : Word :=
  match (gaps n)[k]? with
  | some p => shr n p.1
  | none => 0

/-- The number of leading zero bits. -/
def clz32 (x : Word) : Nat := ((List.range 32).find? fun i => x.getLsbD (31 - i)).getD 32

/-- `L`: the number of significant bits (R103). -/
def significantBits (n : Word) : Nat := 32 - clz32 n

/-- `rev_L(n)`: bits `L-1..0` of `n` reversed (R103). -/
def revWindow (n : Word) : Word := shr n.reverse (clz32 n)

end Sys2Proof.Machine
end

