-- ==== Sys2Proof/Machine/BitPrimitives.lean ====
section
/-! DEFINITION. The meanings of `ctz` and `cto` (40_bit_primitives.md R72, R73, R80): what the edge that
accepts the command does. -/

namespace Sys2Proof.Machine

/-- `AcceptCTZ` (R80). -/
def execCtz (x : Word) (s : State) : Host.Outcome State Fault Refusal :=
  .next (s.respond (BitVec.ofNat 6 (ctz32 x)) .ok)

/-- `AcceptCTO` (R80). -/
def execCto (x : Word) (s : State) : Host.Outcome State Fault Refusal :=
  .next (s.respond (BitVec.ofNat 6 (cto32 x)) .ok)

end Sys2Proof.Machine
end

