-- ==== Sys2Proof/Machine/Reserved.lean ====
section
/-! DEFINITION. The meaning of the reserved op 0b11 (30_encoding.md R55, R56). -/

namespace Sys2Proof.Machine

/-- `AcceptReserved` (R56). The operand is ignored. -/
def execOp3 (_v : Word) (s : State) : Host.Outcome State Fault Refusal :=
  .next (s.respondError .illegalOp)

end Sys2Proof.Machine
end

