-- ==== Sys2Proof/Machine/Dispatch.lean ====
section
/-! DEFINITION. What the edge that accepts a command does, command by command (10_state.md R33). -/

namespace Sys2Proof.Machine

def exec (i : Instr) (s : State) : Host.Outcome State Fault Refusal :=
  match i with
  | .ctz x => Sys2Proof.Machine.execCtz x s
  | .cto x => Sys2Proof.Machine.execCto x s
  | .gap v => Sys2Proof.Machine.execGap v s
  | .op3 v => Sys2Proof.Machine.execOp3 v s

end Sys2Proof.Machine
end

