-- ==== Sys2Proof/Machine/Edge.lean ====
section
/-! DEFINITION. The step function of the spec: one rising edge with a given vector on the input ports
(10_state.md R27, R33; 60_exceptions.md R116). -/

namespace Sys2Proof.Machine

/-- The command word sampled at an accepting edge (30_encoding.md R51). -/
def sampledWord (inp : Input) : CommandWord := CommandWord.ofFields inp.cmdOp inp.cmdOperand

/-- A command is accepted at the edge that ends a cycle with this state and these inputs (R27). -/
def accepts (inp : Input) (s : State) : Bool := !inp.rst && inp.cmdValid && s.fsm == .idle

/-- `Step(S, in)` (R33): reset first, then a running scan, then an offered command (R116). A word is
decoded only when it is accepted (30_encoding.md R54). -/
def clockEdge (inp : Input) (s : State) : Host.Outcome State Fault Refusal :=
  if inp.rst then .next s.enterReset
  else
    match s.fsm with
    | .idle => if inp.cmdValid then exec (decodeWord (sampledWord inp)) s else .next s
    | .scan => .next (scanEdge s)

/-- Successive edges, one for each vector. -/
def runEdges : List Input → State → Host.Outcome State Fault Refusal
  | [], s => .next s
  | inp :: rest, s =>
    match clockEdge inp s with
    | .next t => runEdges rest t
    | .fault r => .fault r
    | .refused r => .refused r

end Sys2Proof.Machine
end

