-- ==== Sys2Proof/Machine/HostProgram.lean ====
section
/-! DEFINITION. How the host's lines drive the input ports (30_encoding.md R57, R58). -/

namespace Sys2Proof.Machine

/-- Nothing offered: `rst = 0`, `cmd_valid = 0`. The other two ports are 0, which no edge can see
(10_state.md R26; DESIGN CHOICE, log 4). -/
def quietInput : Input := { rst := false, cmdValid := false, cmdOp := 0, cmdOperand := 0 }

/-- `rst = 1`, `cmd_valid = 0` (R57). -/
def resetInput : Input := { quietInput with rst := true }

/-- A command offered: its word on the two command ports (R51, R57). -/
def offerInput (i : Instr) : Input :=
  { rst := false, cmdValid := true
    cmdOp := CommandWord.op (encode i), cmdOperand := CommandWord.operand (encode i) }

/-- Whether a line, current in this state, finishes without using a cycle (R57). -/
def takesNoCycle (s : State) : HostLine → Bool
  | .wait => s.done && s.fsm == .idle
  | .idle k => k == 0
  | .command _ => false
  | .reset => false
  | .drive _ => false

/-- The inputs a line drives while it is current (R57). -/
def lineInput : HostLine → Input
  | .command i => offerInput i
  | .reset => resetInput
  | .idle _ => quietInput
  | .wait => quietInput
  | .drive inp => inp

/-- What is left of a line after a cycle in which it was current (R57): a command not accepted and an
unfinished wait stay, an idle counts down. -/
def lineLeft (s : State) : HostLine → List HostLine
  | .command i => if s.fsm = .idle then [] else [.command i]
  | .reset => []
  | .idle k => [.idle (k - 1)]
  | .wait => [.wait]
  | .drive _ => []

/-- The lines from the one that decides this cycle's inputs on (R57). -/
def State.pending (s : State) : List HostLine := s.host.dropWhile (takesNoCycle s)

/-- The inputs of this cycle. A host without a line offers nothing (DESIGN CHOICE, log 3). -/
def State.hostInput (s : State) : Input :=
  match s.pending with
  | [] => quietInput
  | l :: _ => lineInput l

/-- The host's lines after this cycle (R57). -/
def State.hostLeft (s : State) : List HostLine :=
  match s.pending with
  | [] => []
  | l :: rest => lineLeft s l ++ rest

/-- The program has ended: no line is left (R57). -/
def State.programEnded (s : State) : Bool := s.pending.isEmpty

/-- The lines a source line stands for (R57, R58). -/
def expandLine : SourceLine → List HostLine
  | .command m v => [.command (m.instr (literalOperand v))]
  | .reset => [.reset]
  | .idle k => [.idle k]
  | .wait => [.wait]
  | .nop => [.idle 1]
  | .run m v => [.command (m.instr (literalOperand v)), .wait]

/-- The lines of a source program, or nothing when a literal is out of range (R57). -/
def assemble (p : List SourceLine) : Option (List HostLine) :=
  if programWellFormed p then some (p.flatMap expandLine) else none

/-- The vector that offers this word, which bits above bit 33 are not part of (R51). -/
def wordInput (w : Nat) : Input :=
  { rst := false, cmdValid := true
    cmdOp := CommandWord.op (BitVec.ofNat 34 w), cmdOperand := CommandWord.operand (BitVec.ofNat 34 w) }

/-- The state in which the host offers this word now and the block can accept it: FSM is IDLE, since a
word offered during a scan is not accepted (R27). -/
def State.offeringWord (s : State) (w : Nat) : State :=
  { s with fsm := .idle, host := .drive (wordInput w) :: s.host }

end Sys2Proof.Machine
end

