-- ==== Sys2Proof/Machine/Step.lean ====
section
/-! DEFINITION. One step of the machine: one rising edge of `clk` (00_scope.md R13), with the inputs that
the host's current line drives. -/

namespace Sys2Proof.Machine

def step (s : State) : Host.Outcome State Fault Refusal :=
  clockEdge s.hostInput (s.withHost s.hostLeft)

/-- The state whose next step accepts the command word `w` (log 5). -/
def State.withFetchWord (s : State) (nbits w : Nat) : State := s.offeringWord (w % 2 ^ nbits)

end Sys2Proof.Machine
end

