-- ==== Sys2Proof/Machine/Program.lean ====
section
/-! DEFINITION. Running a host program to its end (30_encoding.md R57). -/

namespace Sys2Proof.Machine

/-- The cycle count `T` and the end state `S_T` of the host's program, if it ends within `fuel` cycles
(R57). What happens after its end is no part of it. -/
def runProgram : Nat → State → Option (Nat × State)
  | 0, s => if s.programEnded then some (0, s.withHost []) else none
  | fuel + 1, s =>
    if s.programEnded then some (0, s.withHost [])
    else
      match step s with
      | .next t => (runProgram fuel t).map fun r => (r.1 + 1, r.2)
      | .fault _ => none
      | .refused _ => none

end Sys2Proof.Machine
end

