-- ==== Sys2Proof/Machine/Text.lean ====
section
/-! DEFINITION. The text of a host program's line (30_encoding.md R57, R58), read from its characters.
Words are separated by spaces. R57 gives no case folding and no comments, and none is read. What the spec
leaves open about spelling, where an underscore may stand included, is the model's choice (DESIGN CHOICE,
log 6). -/

namespace Sys2Proof.Machine

/-- The words of a line, split at spaces. -/
def splitWords : List Char → List (List Char)
  | [] => [[]]
  | c :: cs =>
    match splitWords cs with
    | [] => [[]]
    | w :: ws => if c = ' ' then [] :: w :: ws else (c :: w) :: ws

/-- The value of a digit in a base of at most 16. -/
def digitValue (c : Char) : Option Nat :=
  if '0' ≤ c ∧ c ≤ '9' then some (c.toNat - '0'.toNat)
  else if 'a' ≤ c ∧ c ≤ 'f' then some (c.toNat - 'a'.toNat + 10)
  else if 'A' ≤ c ∧ c ≤ 'F' then some (c.toNat - 'A'.toNat + 10)
  else none

/-- Read digits on top of a value read so far; an underscore only groups digits (00_scope.md R10). R10 does
not say where one may stand: here any number may stand between digits or after the last (DESIGN CHOICE,
log 6). -/
def readDigits (base : Nat) : List Char → Nat → Option Nat
  | [], acc => some acc
  | c :: cs, acc =>
    if c = '_' then readDigits base cs acc
    else
      match digitValue c with
      | some d => if d < base then readDigits base cs (acc * base + d) else none
      | none => none

/-- A natural in a base, of at least one character and not beginning with an underscore; that a leading
underscore is refused is the model's choice (DESIGN CHOICE, log 6). -/
def readNat (base : Nat) : List Char → Option Nat
  | [] => none
  | c :: cs => if c = '_' then none else readDigits base (c :: cs) 0

/-- A literal `<v>`: decimal, `0x`, `0b`, or a negative decimal (R57). Its range is checked by
`literalWellFormed`; `-0` is none of them. -/
def readLiteral : List Char → Option Int
  | '0' :: 'x' :: cs => (readNat 16 cs).map Int.ofNat
  | '0' :: 'b' :: cs => (readNat 2 cs).map Int.ofNat
  | '-' :: cs => (readNat 10 cs).bind fun n => if n = 0 then none else some (-(n : Int))
  | cs => (readNat 10 cs).map Int.ofNat

/-- The mnemonic a word spells (R57). -/
def readMnemonic (w : List Char) : Option Mnemonic :=
  if w = ['c', 't', 'z'] then some .ctz
  else if w = ['c', 't', 'o'] then some .cto
  else if w = ['g', 'a', 'p'] then some .gap
  else if w = ['.', 'o', 'p', '3'] then some .op3
  else none

/-- The line that one word, or a word and its argument, or three words spell (R57, R58). -/
def readWords : List (List Char) → Option SourceLine
  | [w] =>
    if w = ['r', 'e', 's', 'e', 't'] then some .reset
    else if w = ['w', 'a', 'i', 't'] then some .wait
    else if w = ['n', 'o', 'p'] then some .nop
    else none
  | [w, a] =>
    if w = ['i', 'd', 'l', 'e'] then (readNat 10 a).map .idle
    else (readMnemonic w).bind fun m => (readLiteral a).map (.command m)
  | [w, m, a] =>
    if w = ['r', 'u', 'n'] then (readMnemonic m).bind fun m => (readLiteral a).map (.run m)
    else none
  | _ => none

/-- The line that some text spells, or nothing (R57, R58). -/
def readLine (text : List Char) : Option SourceLine :=
  readWords ((splitWords text).filter fun w => !w.isEmpty)

end Sys2Proof.Machine
end

