-- ==== Sys2Proof/Machine/Variants.lean ====
section
/-! DEFINITION. The four equivalent formulations of `ctz32` (40_bit_primitives.md R77) and the de Bruijn
table (R78). No meaning uses them: the machine uses `ctz32` itself (R76). -/

namespace Sys2Proof.Machine

/-- `x & ((2^32 - x) mod 2^32)`: the lowest set bit alone (R77). -/
def lowestSetBit (x : Word) : Word := x &&& (0 - x)

/-- The table `DB` as R78 prints it. -/
def deBruijnTable : List Nat :=
  [0, 1, 28, 2, 29, 14, 24, 3, 30, 22, 20, 15, 25, 17, 4, 8] ++
    [31, 27, 13, 23, 21, 19, 16, 7, 26, 12, 18, 6, 11, 5, 10, 9]

/-- The constant of R77 (a). -/
def deBruijnConstant : Word := 0x077CB531#32

/-- Bits 31:27 of a product with the constant, an index into the table (R77, R78). -/
def deBruijnIndex (p : Word) : Nat := ((p * deBruijnConstant).extractLsb' 27 5).toNat

/-- (a) without its zero case (R77; 90_conflicts.md C6). -/
def ctzDeBruijnRaw (x : Word) : Nat := deBruijnTable.getD (deBruijnIndex (lowestSetBit x)) 0

/-- (a) de Bruijn (R77). -/
def ctzDeBruijn (x : Word) : Nat := if x = 0 then 32 else ctzDeBruijnRaw x

/-- One test and shift of (b): `v[k-1:0] = 0` (R77). -/
def halvesStep (cv : Nat × Word) (k : Nat) : Nat × Word :=
  if cv.2.toNat % 2 ^ k = 0 then (cv.1 + k, shr cv.2 k) else cv

/-- (b) without its zero case (R77; 90_conflicts.md C6). -/
def ctzHalvesRaw (x : Word) : Nat := ([16, 8, 4, 2, 1].foldl halvesStep (0, x)).1

/-- (b) halves (R77). -/
def ctzHalves (x : Word) : Nat := if x = 0 then 32 else ctzHalvesRaw x

/-- `popcount(v)` (00_scope.md R11). -/
def popcount (v : Word) : Nat := ((List.range 32).filter fun i => v.getLsbD i).length

/-- (c) popcount (R77). -/
def ctzPopcount (x : Word) : Nat := popcount (lowestSetBit x - 1)

/-- The loop of (d), with the number of bits left to test (R77). -/
def linearScan (x : Word) : Nat → Nat → Nat
  | 0, c => c
  | left + 1, c => if x.getLsbD c then c else linearScan x left (c + 1)

/-- (d) linear (R77). -/
def ctzLinear (x : Word) : Nat := linearScan x 32 0

end Sys2Proof.Machine
end

