-- ==== Sys2Proof/Safety.lean ====
section
/-! DEFINITION. What is true of every state after a reset edge, in the terms the claims use. -/

namespace Sys2Proof.Machine

/-- The states that a run can be in once a reset edge has occurred, whatever the host drives
(10_state.md R34; 70_reset_and_hazards.md R133). -/
inductive AfterReset : State → Prop where
  /-- The state a reset edge enters, from any state. -/
  | reset (s : State) : AfterReset s.enterReset
  /-- Any further edge, with any inputs. -/
  | edge (inp : Input) (s t : State) : AfterReset s → clockEdge inp s = .next t → AfterReset t

/-- The invariant of every state after a reset: RESULT is at most 32 and MAXG at most 29 (10_state.md
R22), STATUS is not the reserved code (60_exceptions.md R111), and during a scan DONE is 0 (R23, R30),
CUR is below 2^30 (41_binary_gap_scanner.md R101) and bit 0 of CUR is 0 (R98). -/
abbrev State.Legal (s : State) : Prop :=
  s.result.toNat ≤ 32 ∧ s.maxg.toNat ≤ 29 ∧ s.status ≠ .reserved ∧
    (s.fsm = .scan → s.done = false ∧ s.cur.toNat < 2 ^ 30 ∧ s.cur.getLsbD 0 = false)

/-- The scan of a valid `n` after `k` iterations: CUR is what is left of `n`, MAXG the largest of the first
`k` gaps (41_binary_gap_scanner.md R98). -/
abbrev State.ScansOperand (n : Word) (k : Nat) (s : State) : Prop :=
  valid n = true ∧ k ≤ gapCount n ∧ s.fsm = .scan ∧ s.done = false ∧
    s.cur = cursorAtGap n k ∧ s.maxg.toNat = longestOf ((gapLengths n).take k)

/-- The scan invariant: a scan in progress is the scan of some valid operand, at some iteration (R98). -/
def State.ScanInv (s : State) : Prop := s.fsm = .scan → ∃ n k, s.ScansOperand n k

/-- The edges at which a scan starts: an accept of a valid `gap` (10_state.md R30). -/
def StartingEdge (inp : Input) (s : State) : Prop :=
  accepts inp s = true ∧ ∃ v, decodeWord (sampledWord inp) = .gap v ∧ valid v = true

/-- The edges at which a response is given: an accept of `ctz`, of `cto`, of the reserved op or of an
invalid `gap`, and the completing edge of a scan (10_state.md R30). -/
def RespondingEdge (inp : Input) (s : State) : Prop :=
  (accepts inp s = true ∧
    ((∃ x, decodeWord (sampledWord inp) = .ctz x) ∨ (∃ x, decodeWord (sampledWord inp) = .cto x) ∨
      (∃ v, decodeWord (sampledWord inp) = .op3 v) ∨
      ∃ v, decodeWord (sampledWord inp) = .gap v ∧ valid v = false)) ∨
    (inp.rst = false ∧ s.fsm = .scan ∧ s.cur = 0)

/-- The next state of an outcome, if it has one. -/
def nextOf : Host.Outcome State Fault Refusal → Option State
  | .next s => some s
  | .fault _ => none
  | .refused _ => none

/-- No edge of this sequence is a reset edge. -/
def noReset (ins : List Input) : Bool := ins.all fun inp => !inp.rst

/-- No cycle of this sequence offers a command. -/
def noOffer (ins : List Input) : Bool := ins.all fun inp => !inp.cmdValid

end Sys2Proof.Machine
end

