-- ==== Sys2Proof/Certificates/Slice0/Obligations.lean ====
section
/-! DEFINITION. The statements about the model, each over every state and every input unless it says
otherwise. "The edge answers `t`" is written as an equation with `.next t`. -/

open Sys2Proof Sys2Proof.Machine

/-! ### Encoding -/

/-- The six encoding examples of R59, read and written. -/
def Obligations.ListedCommandWordsDecode : Prop :=
  decodeWord 0x0_0000_0008#34 = .ctz 0x0000_0008#32 ∧
  decodeWord 0x1_FFFF_FFFF#34 = .cto 0xFFFF_FFFF#32 ∧
  decodeWord 0x2_0000_0009#34 = .gap 0x0000_0009#32 ∧
  decodeWord 0x2_7FFF_FFFF#34 = .gap (literalOperand 2147483647) ∧
  decodeWord 0x2_FFFF_FFFF#34 = .gap (literalOperand (-1)) ∧
  decodeWord 0x3_0000_0000#34 = .op3 0x0000_0000#32 ∧
  encode (.ctz 0x8#32) = 0x0_0000_0008#34 ∧ encode (.cto 0xFFFF_FFFF#32) = 0x1_FFFF_FFFF#34 ∧
  encode (.gap 9#32) = 0x2_0000_0009#34 ∧ encode (.gap (literalOperand (-1))) = 0x2_FFFF_FFFF#34 ∧
  encode (.gap (literalOperand 2147483647)) = 0x2_7FFF_FFFF#34 ∧ encode (.op3 0#32) = 0x3_0000_0000#34

/-- Decode and encode are inverse on all commands and all 2^34 words (30_encoding.md §1). -/
def Obligations.DecodeAndEncodeAreInverse : Prop :=
  (∀ i : Instr, decodeWord (encode i) = i) ∧ (∀ w : CommandWord, encode (decodeWord w) = w)

/-- Each word is a word of exactly one row of the opcode table, the row its `op` selects, and every bit
of its operand is kept (R52). -/
def Obligations.EveryWordMatchesOneTableRow : Prop :=
  ∀ w : CommandWord,
    (opcodeTable.filter fun r => r.accepts w).map OpcodeRow.mnemonic = [(decodeWord w).mnemonic] ∧
    (CommandWord.op w = 0b00#2 → decodeWord w = .ctz (CommandWord.operand w)) ∧
    (CommandWord.op w = 0b01#2 → decodeWord w = .cto (CommandWord.operand w)) ∧
    (CommandWord.op w = 0b10#2 → decodeWord w = .gap (CommandWord.operand w)) ∧
    (CommandWord.op w = 0b11#2 → decodeWord w = .op3 (CommandWord.operand w))

/-- A number decodes exactly when it has at most 34 bits (30_encoding.md §1). That a wider one is refused by
name, and not cut to the 34 bits the ports carry, is the model's choice (DESIGN CHOICE, log 5). -/
def Obligations.OnlyThirtyFourBitNumbersDecode : Prop :=
  ∀ w : Nat,
    (w < 2 ^ 34 → ∃ i, decode w = .ok i ∧ (encode i).toNat = w) ∧
    (2 ^ 34 ≤ w → decode w = .error .widerThanCommandWord)

/-! ### The bit primitives -/

/-- `ctz32` is 32 at 0 and the least position of a one bit elsewhere (R70). -/
def Obligations.CtzIsLowestOneBit : Prop :=
  ∀ x : Word,
    (x = 0 → ctz32 x = 32) ∧
    (x ≠ 0 → IsLeast {i : Nat | i ≤ 31 ∧ x.getLsbD i = true} (ctz32 x)) ∧
    ctz32 x ≤ 32

/-- `cto32` is `ctz32` of the complement: 32 at all ones, the least position of a zero bit elsewhere
(R71). -/
def Obligations.CtoIsLowestZeroBit : Prop :=
  ∀ x : Word,
    cto32 x = ctz32 (~~~x) ∧
    (x = 0xFFFF_FFFF#32 → cto32 x = 32) ∧
    (x ≠ 0xFFFF_FFFF#32 → IsLeast {i : Nat | i ≤ 31 ∧ x.getLsbD i = false} (cto32 x))

/-- Laws 1 to 8 of 40_bit_primitives.md §5 (law 9 is about register operands, which no command has). -/
def Obligations.BitPrimitiveLaws : Prop :=
  ∀ x : Word,
    -- 1, 2
    (ctz32 x ≤ 32 ∧ cto32 x ≤ 32) ∧
    ((ctz32 x = 32 ↔ x = 0) ∧ (cto32 x = 32 ↔ x = 0xFFFF_FFFF#32)) ∧
    -- 3, 4
    (x ≠ 0 → x.getLsbD (ctz32 x) = true ∧ (∀ i < ctz32 x, x.getLsbD i = false) ∧
      (shr x (ctz32 x)).getLsbD 0 = true) ∧
    (x ≠ 0xFFFF_FFFF#32 → x.getLsbD (cto32 x) = false ∧ (∀ i < cto32 x, x.getLsbD i = true) ∧
      (shr x (cto32 x)).getLsbD 0 = false) ∧
    -- 5
    ((0 < ctz32 x ↔ x.getLsbD 0 = false) ∧ (0 < cto32 x ↔ x.getLsbD 0 = true) ∧
      (ctz32 x = 0 ↔ cto32 x ≠ 0)) ∧
    -- 6
    (cto32 x = ctz32 (~~~x) ∧ ctz32 x = cto32 (~~~x)) ∧
    -- 7
    (x ≠ 0 → ∀ k ≤ ctz32 x, ctz32 (shr x k) = ctz32 x - k) ∧
    -- 8
    (x ≠ 0 → (lowestSetBit x).toNat = 2 ^ ctz32 x)

/-- `shr` is floor division by a power of two, and 0 from a shift of 32 on (00_scope.md §5). -/
def Obligations.ShiftIsFloorDivision : Prop :=
  ∀ (v : Word) (s : Nat),
    (s < 32 → (shr v s).toNat = v.toNat / 2 ^ s) ∧ (32 ≤ s → shr v s = 0)

/-- Each of the four formulations equals `ctz32` on every input, and without their zero cases (a) gives 0
and (b) gives 31 at 0 (R77). -/
def Obligations.CtzFormulationsAgree : Prop :=
  (∀ x : Word, ctzDeBruijn x = ctz32 x ∧ ctzHalves x = ctz32 x ∧ ctzPopcount x = ctz32 x ∧
    ctzLinear x = ctz32 x) ∧
  ctzDeBruijnRaw 0 = 0 ∧ ctzHalvesRaw 0 = 31

/-- The table `DB` is the one the constant gives: its 32 windows are distinct and fill it (R78). -/
def Obligations.DeBruijnTableFollowsFromConstant : Prop :=
  deBruijnTable.length = 32 ∧
  (∀ k < 32, deBruijnTable[deBruijnIndex (BitVec.ofNat 32 (2 ^ k))]? = some k) ∧
  ((List.range 32).map fun k => deBruijnIndex (BitVec.ofNat 32 (2 ^ k))).Nodup

/-! ### The commands at their accepting edge -/

/-- `ctz` answers a next state for every operand: RESULT, STATUS and DONE as 40_bit_primitives.md §2 and §6
say, FSM IDLE, nothing else changed; with the encoding, corner cases and example of §2. The spec speaks of
the accepting edge, at which FSM is IDLE; that the same writes are exec's on a state in SCAN is the model's
reading (DEDUCED, log 10). -/
def Obligations.CtzCommandAnswersTrailingZeros : Prop :=
  (∀ (x : Word) (s : State), ∃ t, exec (.ctz x) s = .next t ∧
    t.result.toNat = ctz32 x ∧ t.status = .ok ∧ t.done = true ∧ t.fsm = .idle ∧
    t.cur = s.cur ∧ t.maxg = s.maxg ∧ t.host = s.host) ∧
  (∀ x : Word, encode (.ctz x) = CommandWord.ofFields 0b00#2 x ∧
    (encode (.ctz x) &&& 0x3_0000_0000#34) = 0x0_0000_0000#34) ∧
  ctz32 0 = 32 ∧ ctz32 0x8000_0000#32 = 31 ∧ (∀ x : Word, x.getLsbD 0 = true → ctz32 x = 0) ∧
  (∀ x, ctz32 x ≤ 32) ∧ ctz32 0x0000_0028#32 = 3

/-- `cto` answers a next state for every operand: RESULT, STATUS and DONE as 40_bit_primitives.md §2 and §6
say, FSM IDLE, nothing else changed; with the encoding, corner cases and example of §2. The spec speaks of
the accepting edge, at which FSM is IDLE; that the same writes are exec's on a state in SCAN is the model's
reading (DEDUCED, log 10). -/
def Obligations.CtoCommandAnswersTrailingOnes : Prop :=
  (∀ (x : Word) (s : State), ∃ t, exec (.cto x) s = .next t ∧
    t.result.toNat = cto32 x ∧ t.status = .ok ∧ t.done = true ∧ t.fsm = .idle ∧
    t.cur = s.cur ∧ t.maxg = s.maxg ∧ t.host = s.host) ∧
  (∀ x : Word, encode (.cto x) = CommandWord.ofFields 0b01#2 x ∧
    (encode (.cto x) &&& 0x3_0000_0000#34) = 0x1_0000_0000#34) ∧
  cto32 0xFFFF_FFFF#32 = 32 ∧ cto32 0x7FFF_FFFF#32 = 31 ∧
  (∀ x : Word, x.getLsbD 0 = false → cto32 x = 0) ∧ cto32 0x0000_0017#32 = 3

/-- The reserved op answers a next state for every operand: filler RESULT 0, ILLEGAL_OP, DONE 1, FSM IDLE,
and CUR and MAXG as they were (30_encoding.md §2). The spec speaks of the accepting edge, at which FSM is
IDLE; that the same writes are exec's on a state in SCAN is the model's reading (DEDUCED, log 10). -/
def Obligations.ReservedOpAnswersIllegalOp : Prop :=
  ∀ (v : Word) (s : State), ∃ t, exec (.op3 v) s = .next t ∧
    t.result = 0 ∧ t.status = .illegalOp ∧ t.status.code = 0b10#2 ∧ t.done = true ∧ t.fsm = .idle ∧
    t.cur = s.cur ∧ t.maxg = s.maxg ∧ t.host = s.host

/-- `gap` at its accepting edge (41_binary_gap_scanner.md §2). A valid operand starts the scan: the low zero run and then the low
one run are shifted out, MAXG and DONE are 0, FSM is SCAN, RESULT and STATUS hold. An invalid one is
answered INVALID_ARGUMENT with filler 0, CUR and MAXG held, and FSM IDLE if it was. The spec speaks of the
accepting edge, at which FSM is IDLE; that the same writes are exec's on a state in SCAN is the model's
reading (DEDUCED, log 10). -/
def Obligations.GapAcceptStartsScanOrReportsError : Prop :=
  ∀ (v : Word) (s : State),
    (v ≠ 0 → v.getLsbD 31 = false → ∃ t a, exec (.gap v) s = .next t ∧
      a = shr v (ctz32 v) ∧ a.getLsbD 0 = true ∧ t.cur = shr a (cto32 a) ∧ t.maxg = 0 ∧
      t.done = false ∧ t.fsm = .scan ∧ t.result = s.result ∧ t.status = s.status ∧
      t.host = s.host) ∧
    (v = 0 ∨ v.getLsbD 31 = true → ∃ t, exec (.gap v) s = .next t ∧
      t.result = 0 ∧ t.status = .invalidArgument ∧ t.status.code = 0b01#2 ∧ t.done = true ∧
      (s.fsm = .idle → t.fsm = .idle) ∧ t.cur = s.cur ∧ t.maxg = s.maxg ∧ t.host = s.host)

/-- From IDLE, a stream of `ctz` and `cto` commands runs at one a cycle, and the response of each is there
in the cycle after its accepting edge, with `cmd_ready` still 1 (R80). -/
def Obligations.BitPrimitiveStreamRunsOnePerEdge : Prop :=
  ∀ (earlier : List Instr) (s : State),
    (∀ i ∈ earlier, i.mnemonic = .ctz ∨ i.mnemonic = .cto) → s.fsm = .idle →
    ∀ x : Word,
      (∃ t, runEdges ((earlier ++ [Instr.ctz x]).map offerInput) s = .next t ∧
        t.result.toNat = ctz32 x ∧ t.status = .ok ∧ t.done = true ∧ t.fsm = .idle ∧
        t.cur = s.cur ∧ t.maxg = s.maxg ∧ t.outputs.cmdReady = true) ∧
      (∃ t, runEdges ((earlier ++ [Instr.cto x]).map offerInput) s = .next t ∧
        t.result.toNat = cto32 x ∧ t.status = .ok ∧ t.done = true ∧ t.fsm = .idle ∧
        t.cur = s.cur ∧ t.maxg = s.maxg ∧ t.outputs.cmdReady = true)

/-! ### Edges -/

/-- The step function, case by case in the order of 10_state.md §6. That the host's lines survive a reset
edge is the model's reading (DEDUCED, log 12); the rest is the spec's. -/
def Obligations.ClockEdgeFollowsStepFunction : Prop :=
  ∀ (inp : Input) (s : State),
    (inp.rst = true → clockEdge inp s = .next (State.reset.withHost s.host)) ∧
    (inp.rst = false → s.fsm = .idle → inp.cmdValid = true →
      (inp.cmdOp = 0b00#2 → clockEdge inp s = execCtz inp.cmdOperand s) ∧
      (inp.cmdOp = 0b01#2 → clockEdge inp s = execCto inp.cmdOperand s) ∧
      (inp.cmdOp = 0b10#2 → clockEdge inp s = execGap inp.cmdOperand s) ∧
      (inp.cmdOp = 0b11#2 → clockEdge inp s = execOp3 inp.cmdOperand s)) ∧
    (inp.rst = false → s.fsm = .scan →
      (s.cur = 0 → clockEdge inp s = .next (completeGap s)) ∧
      (s.cur ≠ 0 → clockEdge inp s = .next (iterateGap s))) ∧
    (inp.rst = false → s.fsm = .idle → inp.cmdValid = false → clockEdge inp s = .next s)

/-- Every step, and every sequence of edges, answers a next state: no state and no input stops the
machine (10_state.md §6). -/
def Obligations.EveryStepAnswersNext : Prop :=
  (∀ s : State, ∃ t, step s = .next t) ∧
  (∀ (ins : List Input) (s : State), ∃ t, runEdges ins s = .next t)

/-- A step from IDLE with a command offered runs the command that the offered word decodes to, the host's
lines moved on. So does a step whose current line is a command, and one whose word was placed with
`withFetchWord` (the model's own way to offer a word, log 5). -/
def Obligations.StepRunsDecodedCommand : Prop :=
  (∀ s : State, s.fsm = .idle → s.hostInput.rst = false → s.hostInput.cmdValid = true →
    step s = exec (decodeWord (sampledWord s.hostInput)) (s.withHost s.hostLeft)) ∧
  (∀ (s : State) (i : Instr) (rest : List HostLine), s.fsm = .idle → s.host = .command i :: rest →
    step s = exec i (s.withHost rest)) ∧
  (∀ (s : State) (nbits w : Nat) (i : Instr), s.fsm = .idle → decodeTableWord nbits w = some i →
    step (s.withFetchWord nbits w) = exec i s)

/-- A command is accepted exactly when `rst = 0`, `cmd_valid = 1` and FSM is IDLE, which `cmd_ready`
shows; one offered while `cmd_ready = 0` has no effect (R27). -/
def Obligations.CommandAcceptedExactlyWhenReady : Prop :=
  ∀ (inp : Input) (s : State),
    (accepts inp s = true ↔ inp.rst = false ∧ inp.cmdValid = true ∧ s.fsm = .idle) ∧
    (s.outputs.cmdReady = true ↔ s.fsm = .idle) ∧
    (accepts inp s = true → clockEdge inp s = exec (decodeWord (sampledWord inp)) s) ∧
    (s.outputs.cmdReady = false → clockEdge inp s = clockEdge { inp with cmdValid := false } s)

/-- At an edge that accepts nothing, `cmd_op` and `cmd_operand` have no effect (10_state.md §3;
70_reset_and_hazards.md §3). -/
def Obligations.CommandPortsUnseenUnlessAccepted : Prop :=
  ∀ (inp : Input) (s : State) (op : BitVec 2) (v : Word), accepts inp s = false →
    clockEdge { inp with cmdOp := op, cmdOperand := v } s = clockEdge inp s

/-- One iteration of the scan, whatever is offered (R96): MAXG becomes the larger of itself and the low
zero run, that run and the one run above it are shifted out, and nothing else changes. -/
def Obligations.ScanIterationMeasuresAndStripsRun : Prop :=
  ∀ (inp : Input) (s : State), inp.rst = false → s.fsm = .scan → s.cur ≠ 0 →
    ∃ t b, clockEdge inp s = .next t ∧
      t.maxg.toNat = max s.maxg.toNat (ctz32 s.cur) ∧
      b = shr s.cur (ctz32 s.cur) ∧ b.getLsbD 0 = true ∧ t.cur = shr b (cto32 b) ∧
      t.fsm = .scan ∧ t.done = s.done ∧ t.result = s.result ∧ t.status = s.status ∧ t.host = s.host

/-- The completing edge answers MAXG, whatever is offered, and accepts nothing (R97). -/
def Obligations.ScanCompletionAnswersMaxg : Prop :=
  ∀ (inp : Input) (s : State), inp.rst = false → s.fsm = .scan → s.cur = 0 →
    accepts inp s = false ∧
    ∃ t, clockEdge inp s = .next t ∧
      t.result = s.maxg ∧ t.status = .ok ∧ t.done = true ∧ t.fsm = .idle ∧
      t.cur = 0 ∧ t.maxg = s.maxg ∧ t.host = s.host ∧ t.outputs.cmdReady = true

/-- A reset edge enters RESET_STATE from any state and whatever the other inputs
(70_reset_and_hazards.md §1). That the host's own lines are kept is the model's reading (DEDUCED, log 12). -/
def Obligations.ResetEdgeEntersResetState : Prop :=
  ∀ (inp : Input) (s : State), inp.rst = true → ∃ t, clockEdge inp s = .next t ∧
    t.fsm = .idle ∧ t.done = false ∧ t.result = 0 ∧ t.status = .ok ∧ t.cur = 0 ∧ t.maxg = 0 ∧
    t.fsm.code = 0#1 ∧ t.status.code = 0b00#2 ∧ t.host = s.host

/-- The outputs in the cycle after a reset edge, and of the reset state (R131). -/
def Obligations.ResetOutputsAreReadyAndQuiet : Prop :=
  (∀ (inp : Input) (s t : State), inp.rst = true → clockEdge inp s = .next t →
    t.outputs = { cmdReady := true, rspValid := false, rspResult := 0, rspStatus := 0b00#2 }) ∧
  State.reset.outputs = { cmdReady := true, rspValid := false, rspResult := 0, rspStatus := 0b00#2 }

/-- The outputs are those functions of FSM, DONE, RESULT and STATUS (R28). -/
def Obligations.OutputsAreFunctionsOfRegisters : Prop :=
  (∀ s : State, s.outputs.cmdReady = decide (s.fsm = .idle) ∧ s.outputs.rspValid = s.done ∧
    s.outputs.rspResult = s.result ∧ s.outputs.rspStatus = s.status.code) ∧
  (∀ s u : State, s.fsm = u.fsm → s.done = u.done → s.result = u.result → s.status = u.status →
    s.outputs = u.outputs)

/-- From any power-up state, one reset edge and then a command: the command runs from RESET_STATE
(70_reset_and_hazards.md §2). That the host's lines survive the reset edge is the model's reading (DEDUCED,
log 12). -/
def Obligations.BootNeedsOneResetEdge : Prop :=
  ∀ (s : State) (inp : Input) (i : Instr), inp.rst = true →
    runEdges [inp, offerInput i] s = exec i (State.reset.withHost s.host)

/-- While FSM is IDLE and nothing is offered, every register holds for as many cycles as pass, so a
response stays as it is (60_exceptions.md §3; 10_state.md §3). -/
def Obligations.IdleBlockHoldsEveryRegister : Prop :=
  ∀ (ins : List Input) (s : State), s.fsm = .idle → noReset ins = true → noOffer ins = true →
    runEdges ins s = .next s

/-- A reset edge during a scan abandons it: no response appears while no later command is offered, and a
command offered at the reset edge is dropped (70_reset_and_hazards.md §2). -/
def Obligations.ResetAbandonsScan : Prop :=
  ∀ (inp : Input) (later : List Input) (s : State), s.fsm = .scan → inp.rst = true →
    noOffer later = true →
    accepts inp s = false ∧
    ∃ t, runEdges (inp :: later) s = .next t ∧
      t.done = false ∧ t.cur = 0 ∧ t.maxg = 0 ∧ t.fsm = .idle ∧ t.outputs.rspValid = false

/-! ### Errors -/

/-- The operands `gap` takes: N at least 1, which is every pattern from 1 to 2^31 - 1 (R91). -/
def Obligations.ValidOperandsArePositive : Prop :=
  ∀ v : Word,
    (valid v = true ↔ 1 ≤ sval v) ∧
    (valid v = true ↔ v ≠ 0 ∧ v.getLsbD 31 = false) ∧
    (valid v = true ↔ 0x0000_0001 ≤ v.toNat ∧ v.toNat ≤ 0x7FFF_FFFF)

/-- The two readings of an operand, and the literals that stand for them (30_encoding.md §1, §3). -/
def Obligations.OperandReadingsAgree : Prop :=
  (∀ v : Word, valid v = true → sval v = v.toNat) ∧
  (∀ v : Word, -2 ^ 31 ≤ sval v ∧ sval v < 2 ^ 31 ∧ sval v % 2 ^ 32 = v.toNat) ∧
  (∀ v : Int, literalWellFormed v = true →
    (0 ≤ v → ((literalOperand v).toNat : Int) = v) ∧ (v < 0 → sval (literalOperand v) = v))

/-- The codes and their causes (60_exceptions.md §1). A response at an accepting edge is INVALID_ARGUMENT exactly for `gap`
with N < 1 and ILLEGAL_OP exactly for op 0b11, each with the filler 0, and otherwise OK with the count of
`ctz` or `cto` in RESULT. A valid `gap` raises nothing at its accepting edge; the edge that completes a scan
answers OK with MAXG, which is LBG(N) for the operand N accepted, and any other edge of a scan leaves STATUS,
RESULT and DONE alone, so no error is raised during SCAN. The clauses on exec speak of the accepting edge, at
which FSM is IDLE; that they hold of exec on a state in SCAN is the model's reading (DEDUCED, log 10). -/
def Obligations.StatusCodesHaveTheirCauses : Prop :=
  (Status.ok.code = 0b00#2 ∧ Status.invalidArgument.code = 0b01#2 ∧ Status.illegalOp.code = 0b10#2 ∧
    Status.reserved.code = 0b11#2) ∧
  (∀ (i : Instr) (s t : State), exec i s = .next t → t.done = true →
    (t.status = .invalidArgument ↔ ∃ v, i = .gap v ∧ (v = 0 ∨ v.getLsbD 31 = true)) ∧
    (t.status = .illegalOp ↔ ∃ v, i = .op3 v) ∧
    (t.status = .ok ↔ ∃ v, i = .ctz v ∨ i = .cto v) ∧
    (t.status ≠ .ok → t.result = 0) ∧
    (∀ x, i = .ctz x → t.result.toNat = ctz32 x) ∧ (∀ x, i = .cto x → t.result.toNat = cto32 x)) ∧
  (∀ v (s t : State), valid v = true → exec (.gap v) s = .next t →
    t.status = s.status ∧ t.result = s.result ∧ t.done = false) ∧
  (∀ (inp : Input) (s : State), inp.rst = false → s.fsm = .scan → s.cur = 0 →
    ∃ t, clockEdge inp s = .next t ∧ t.status = .ok ∧ t.result = s.maxg ∧ t.done = true) ∧
  (∀ (inp : Input) (s : State), inp.rst = false → s.fsm = .scan → s.cur ≠ 0 →
    ∃ t, clockEdge inp s = .next t ∧ t.status = s.status ∧ t.result = s.result ∧ t.done = s.done) ∧
  (∀ (n : Word) (inp : Input) (later : List Input) (s : State), valid n = true →
    accepts inp s = true → decodeWord (sampledWord inp) = .gap n → noReset later = true →
    later.length = gapCount n + 1 →
    ∃ t, runEdges (inp :: later) s = .next t ∧ t.done = true ∧ t.status = .ok ∧
      t.result.toNat = lbg n)

/-- An error changes DONE, STATUS and RESULT and nothing else: it saves no state and jumps nowhere
(R117). -/
def Obligations.ErrorsChangeOnlyTheResponse : Prop :=
  ∀ (inp : Input) (s : State), accepts inp s = true →
    (∃ v, decodeWord (sampledWord inp) = .op3 v) ∨
      (∃ v, decodeWord (sampledWord inp) = .gap v ∧ valid v = false) →
    ∃ t, clockEdge inp s = .next t ∧ t.done = true ∧ t.status ≠ .ok ∧ t.result = 0 ∧
      t.fsm = s.fsm ∧ t.cur = s.cur ∧ t.maxg = s.maxg ∧ t.host = s.host ∧
      t.outputs.cmdReady = true

/-- A response with STATUS other than OK has no number in it, and `gap` with N < 1 is an error value with the
filler 0 in RESULT (60_exceptions.md §1). The clauses on exec speak of the accepting edge, at which FSM is
IDLE; that they hold of exec on a state in SCAN is the model's reading (DEDUCED, log 10). -/
def Obligations.ErrorResponsesHaveNoNumber : Prop :=
  (∀ (s : State) (r : U6), s.status ≠ .ok → s.response ≠ .answer r) ∧
  (∀ (v : Word) (s t : State), sval v < 1 → exec (.gap v) s = .next t →
    t.response = .error .invalidArgument ∧ t.result = 0) ∧
  (∀ (v : Word) (s t : State), exec (.op3 v) s = .next t →
    t.response = .error .illegalOp ∧ t.result = 0) ∧
  (∀ v : Word, longestBinaryGap v = if sval v < 1 then .error .invalidArgument else .ok (lbg v))

/-- The flags of 10_state.md §4. A responding edge (an accept of `ctz`, `cto`, op 0b11 or an invalid `gap`,
or a completing edge) sets DONE, and the accept of a valid `gap` clears it. Without a reset edge, DONE rises
at a responding edge only and falls at the accept of a valid `gap` only, and STATUS and RESULT change at a
responding edge only. A reset edge clears DONE and sets STATUS to OK. -/
def Obligations.FlagsChangeOnlyWhereListed : Prop :=
  ∀ (inp : Input) (s t : State), clockEdge inp s = .next t →
    (RespondingEdge inp s → t.done = true ∧ t.fsm = .idle) ∧
    (StartingEdge inp s → t.done = false) ∧
    (inp.rst = true → t.done = false ∧ t.status = .ok) ∧
    (inp.rst = false →
      (s.done = true → t.done = false → StartingEdge inp s) ∧
      (s.done = false → t.done = true → RespondingEdge inp s) ∧
      (t.status ≠ s.status ∨ t.result ≠ s.result → RespondingEdge inp s))

/-- FSM becomes SCAN only at an edge that accepts a valid `gap`, and IDLE again only at the completing
edge or a reset edge (R23). -/
def Obligations.ScanEntersAndLeavesOnlyAsListed : Prop :=
  ∀ (inp : Input) (s : State), ∃ t, clockEdge inp s = .next t ∧
    (s.fsm = .idle → (t.fsm = .scan ↔
      accepts inp s = true ∧ ∃ v, decodeWord (sampledWord inp) = .gap v ∧ valid v = true)) ∧
    (s.fsm = .scan → (t.fsm = .idle ↔ inp.rst = true ∨ s.cur = 0))

/-! ### Invariants -/

/-- The invariant holds at reset, and after a reset edge from any state. -/
def Obligations.LegalAtReset : Prop :=
  State.reset.Legal ∧ ∀ s : State, s.enterReset.Legal

/-- Every edge and every step keeps the invariant: the bounds of RESULT and MAXG, no reserved STATUS, and
a scan's DONE, CUR below 2^30 and CUR's bit 0 clear. -/
def Obligations.EveryStepKeepsLegal : Prop :=
  (∀ (inp : Input) (s t : State), s.Legal → clockEdge inp s = .next t → t.Legal) ∧
  (∀ s t : State, s.Legal → step s = .next t → t.Legal)

/-- Once a reset has occurred, whatever the host then drives, RESULT is never above 32, MAXG never above
29, STATUS and the response never the reserved one, and DONE is 0 during a scan (10_state.md §2;
60_exceptions.md §1). -/
def Obligations.RegistersBoundedAfterReset : Prop :=
  ∀ s : State, AfterReset s →
    s.result.toNat ≤ 32 ∧ s.maxg.toNat ≤ 29 ∧ s.status ≠ .reserved ∧ s.response ≠ .reservedStatus ∧
    (s.fsm = .scan → s.done = false)

/-- A later command is accepted only when the earlier one has completed: after an accepted command, with
no reset edge since, FSM is IDLE only with DONE = 1 (20_memory.md §3). -/
def Obligations.EarlierCommandCompletesBeforeNext : Prop :=
  ∀ (first : Input) (later : List Input) (s t : State), accepts first s = true →
    noReset later = true → runEdges (first :: later) s = .next t →
    (t.fsm = .idle ↔ t.done = true) ∧ (∀ next : Input, accepts next t = true → t.done = true)

/-! ### The longest binary gap -/

/-- The loop invariant of R98. After the edge that accepts a valid N and `k` iterations, for any `k` up to
the number of gaps: CUR is N with everything up to its `k`th gap shifted out, 0 when no gap is left; MAXG is
the largest of the first `k` gaps; a nonzero CUR has bit 0 clear and a one bit above, and its low zero run is
that gap. Nothing else has changed. -/
def Obligations.ScanConsumesGapsInOrder : Prop :=
  ∀ (n : Word) (inp : Input) (later : List Input) (s : State), valid n = true →
    accepts inp s = true → decodeWord (sampledWord inp) = .gap n →
    noReset later = true → later.length ≤ gapCount n →
    ∃ t, runEdges (inp :: later) s = .next t ∧
      t.fsm = .scan ∧ t.done = false ∧ t.result = s.result ∧ t.status = s.status ∧ t.host = s.host ∧
      t.maxg.toNat = longestOf ((gapLengths n).take later.length) ∧
      (∀ p, (gaps n)[later.length]? = some p →
        t.cur = shr n p.1 ∧ t.cur ≠ 0 ∧ ctz32 t.cur = p.2 - p.1) ∧
      (later.length = gapCount n → t.cur = 0) ∧
      (t.cur ≠ 0 → t.cur.getLsbD 0 = false ∧ ∃ i, 0 < i ∧ t.cur.getLsbD i = true)

/-- The scan invariant at reset, and after a reset edge from any state (41_binary_gap_scanner.md §3). -/
def Obligations.ScanInvariantAtReset : Prop :=
  State.reset.ScanInv ∧ ∀ s : State, s.enterReset.ScanInv

/-- Every edge and every step keeps the invariant that a scan in progress is the scan of some valid operand
(41_binary_gap_scanner.md §3). Without reset, the scan of `n` after `k` iterations becomes, whatever is
offered, the scan of `n` after `k + 1` while a gap is left, and the response LBG(n) when none is. -/
def Obligations.EveryStepKeepsScanOfAnOperand : Prop :=
  (∀ (inp : Input) (s t : State), s.ScanInv → clockEdge inp s = .next t → t.ScanInv) ∧
  (∀ s t : State, s.ScanInv → step s = .next t → t.ScanInv) ∧
  (∀ (n : Word) (k : Nat) (inp : Input) (s : State), s.ScansOperand n k → inp.rst = false →
    ∃ t, clockEdge inp s = .next t ∧
      (k < gapCount n → t.ScansOperand n (k + 1)) ∧
      (k = gapCount n →
        t.fsm = .idle ∧ t.done = true ∧ t.status = .ok ∧ t.result.toNat = lbg n))

/-- The latency and the answer of `gap` (R100). A valid N: SCAN for g(N) + 1 states, CUR = 0 in the last,
then DONE with RESULT = LBG(N), g(N) + 2 edges after the offer, at most 17 (that it is at least 2 holds of any
count g(N)). An invalid operand: one edge. -/
def Obligations.GapAnswersLongestBinaryGap : Prop :=
  ∀ (n : Word) (inp : Input) (later : List Input) (s : State),
    accepts inp s = true → decodeWord (sampledWord inp) = .gap n → noReset later = true →
    (valid n = true →
      (later.length ≤ gapCount n → ∃ t, runEdges (inp :: later) s = .next t ∧
        t.fsm = .scan ∧ t.done = false ∧ (t.cur = 0 ↔ later.length = gapCount n)) ∧
      (later.length = gapCount n + 1 → ∃ t, runEdges (inp :: later) s = .next t ∧
        t.done = true ∧ t.fsm = .idle ∧ t.result.toNat = lbg n ∧ t.status = .ok ∧
        t.response = .answer (BitVec.ofNat 6 (lbg n))) ∧
      2 ≤ gapCount n + 2 ∧ gapCount n + 2 ≤ 17) ∧
    (valid n = false → ∃ t, clockEdge inp s = .next t ∧ t.done = true ∧ t.fsm = .idle ∧
      t.status = .invalidArgument ∧ t.response = .error .invalidArgument)

/-- The algorithm computes the longest binary gap (41_binary_gap_scanner.md §1). The bound on the loop's
iterations is the model's (DESIGN CHOICE, log 9). -/
def Obligations.AlgorithmComputesLongestGap : Prop :=
  ∀ n : Word, valid n = true → lbgAlg n = lbg n

/-- LBG(N) is at most 29, and 29 at 0x4000_0001 only; during the scan CUR is below 2^30, so every zero run
measured, and MAXG, is at most 29 (R101). -/
def Obligations.LongestGapIsAtMostTwentyNine : Prop :=
  ∀ n : Word, valid n = true →
    lbg n ≤ 29 ∧ (lbg n = 29 ↔ n = 0x4000_0001#32) ∧
    (∀ (inp : Input) (later : List Input) (s t : State), accepts inp s = true →
      decodeWord (sampledWord inp) = .gap n → noReset later = true →
      runEdges (inp :: later) s = .next t → later.length ≤ gapCount n →
      t.fsm = .scan ∧ t.cur.toNat < 2 ^ 30 ∧ (t.cur ≠ 0 → ctz32 t.cur ≤ 29) ∧ t.maxg.toNat ≤ 29)

/-- LBG(N) is 0 exactly when N is a run of ones followed by a run of zeros, and 496 operands are (R102). -/
def Obligations.NoGapOperandsAreOnesThenZeros : Prop :=
  (∀ n : Word, valid n = true →
    (lbg n = 0 ↔ ∃ a b, 1 ≤ a ∧ a + b ≤ 31 ∧ n.toNat = (2 ^ a - 1) * 2 ^ b)) ∧
  (∃ l : List Word, l.Nodup ∧ l.length = 496 ∧ ∀ n : Word, n ∈ l ↔ valid n = true ∧ lbg n = 0)

/-- Reversing N within its significant bits gives a valid operand with the same longest gap, its gaps one
to one with N's (R103). -/
def Obligations.ReversalKeepsLongestGap : Prop :=
  ∀ n : Word, valid n = true →
    valid (revWindow n) = true ∧ (revWindow n).toNat < 2 ^ significantBits n ∧
    2 ^ (significantBits n - 1) ≤ n.toNat ∧ n.toNat < 2 ^ significantBits n ∧
    (∀ k < significantBits n,
      (revWindow n).getLsbD k = n.getLsbD (significantBits n - 1 - k)) ∧
    (∀ i j, i ≤ significantBits n → j ≤ significantBits n →
      ((i, j) ∈ gaps n ↔ (significantBits n - j, significantBits n - i) ∈ gaps (revWindow n))) ∧
    lbg (revWindow n) = lbg n

/-- On the valid operands every shift amount of the scan is at most 31, and 31 comes only from the one run
stripped at the accepting edge of 0x7FFF_FFFF; on all nonzero operands the largest is 32, at 0xFFFF_FFFF
(R104). -/
def Obligations.ScanShiftAmountsAreBounded : Prop :=
  (∀ n : Word, valid n = true →
    ctz32 n < 31 ∧ cto32 (stripZeros n) ≤ 31 ∧
    (cto32 (stripZeros n) = 31 ↔ n = 0x7FFF_FFFF#32) ∧
    (∀ k, scanCursor n k ≠ 0 →
      ctz32 (scanCursor n k) < 31 ∧ cto32 (stripZeros (scanCursor n k)) < 31)) ∧
  (∀ n : Word, n ≠ 0 →
    ctz32 n < 32 ∧ cto32 (stripZeros n) ≤ 32 ∧
    (cto32 (stripZeros n) = 32 ↔ n = 0xFFFF_FFFF#32) ∧
    (∀ k, scanCursor n k ≠ 0 →
      ctz32 (scanCursor n k) < 32 ∧ cto32 (stripZeros (scanCursor n k)) < 32))

/-- A valid N has at most 15 gaps, so its loop runs at most 15 times, and 15 at 0x5555_5555 only; the loop
of the algorithm ends at its first zero cursor, after as many iterations as there are gaps (R105). -/
def Obligations.ScanIterationsAreAtMostFifteen : Prop :=
  ∀ n : Word, valid n = true →
    gapCount n ≤ 15 ∧ gapCount n ≤ 16 ∧ (gapCount n = 15 ↔ n = 0x5555_5555#32) ∧
    (∀ k, scanCursor n k = 0 ↔ gapCount n ≤ k)

/-- Every accepted command completes within 17 edges of its offer, if no reset edge comes
(70_reset_and_hazards.md §4). -/
def Obligations.AcceptedCommandsCompleteInSeventeenEdges : Prop :=
  ∀ (inp : Input) (later : List Input) (s : State), accepts inp s = true → noReset later = true →
    Config.maxLatency ≤ later.length + 1 →
    ∃ k t, k + 1 ≤ Config.maxLatency ∧ runEdges (inp :: later.take k) s = .next t ∧
      t.done = true ∧ t.fsm = .idle

/-- A `gap` response depends on the accepted operand alone (R106): from any two states that accept the
same operand, with any inputs afterwards but reset, the scan registers agree cycle by cycle and the response
is the same. -/
def Obligations.GapResponseDependsOnOperandOnly : Prop :=
  ∀ (n : Word) (inp inp' : Input) (later later' : List Input) (s s' : State),
    accepts inp s = true → accepts inp' s' = true →
    decodeWord (sampledWord inp) = .gap n → decodeWord (sampledWord inp') = .gap n →
    noReset later = true → noReset later' = true → later.length = later'.length →
    (valid n = true → later.length ≤ gapCount n + 1) → (valid n = false → later = []) →
    ∃ t t', runEdges (inp :: later) s = .next t ∧ runEdges (inp' :: later') s' = .next t' ∧
      t.fsm = t'.fsm ∧ t.done = t'.done ∧ t.response = t'.response ∧
      (valid n = true → t.cur = t'.cur ∧ t.maxg = t'.maxg)

/-- What an earlier command left in CUR and MAXG is never seen: two IDLE states that differ in nothing
else show the same outputs after any sequence of inputs (10_state.md §2, §5). -/
def Obligations.LeftoverScanRegistersAreNeverSeen : Prop :=
  ∀ (ins : List Input) (s : State) (c : Word) (m : U6), s.fsm = .idle →
    ∃ t u, runEdges ins s = .next t ∧ runEdges ins (s.setScan c m) = .next u ∧
      t.outputs = u.outputs ∧ t.response = u.response ∧
      (t.fsm = .scan → t.cur = u.cur ∧ t.maxg = u.maxg)

/-! ### Host programs -/

/-- What each line drives in a cycle, and what is left of it (30_encoding.md §3): a command is offered
until it is accepted, a reset lasts one cycle, an idle counts down, a wait lasts until DONE = 1 and FSM is
IDLE and then uses no cycle. The model's own are: the `drive` line (DESIGN CHOICE, log 2), that nothing is
offered after the last line (DESIGN CHOICE, log 3), that `cmd_op` and `cmd_operand` are 0 then (the
`quietInput` of the last clause; DESIGN CHOICE, log 4), and that `idle 0` is a line that uses no cycle
(DEDUCED, log 13). -/
def Obligations.HostLinesDriveTheirInputs : Prop :=
  ∀ (s : State) (rest : List HostLine),
    (∀ i, s.host = .command i :: rest →
      s.hostInput.rst = false ∧ s.hostInput.cmdValid = true ∧ s.hostInput.cmdOp = i.op ∧
      s.hostInput.cmdOperand = i.operand ∧
      (s.fsm = .idle → s.hostLeft = rest) ∧ (s.fsm = .scan → s.hostLeft = s.host)) ∧
    (s.host = .reset :: rest →
      s.hostInput.rst = true ∧ s.hostInput.cmdValid = false ∧ s.hostLeft = rest) ∧
    (∀ k, s.host = .idle (k + 1) :: rest →
      s.hostInput.rst = false ∧ s.hostInput.cmdValid = false ∧ s.hostLeft = .idle k :: rest) ∧
    (s.host = .idle 0 :: rest → step s = step (s.withHost rest)) ∧
    (s.host = .wait :: rest → s.done = true → s.fsm = .idle → step s = step (s.withHost rest)) ∧
    (s.host = .wait :: rest → s.done = false ∨ s.fsm = .scan →
      s.hostInput.rst = false ∧ s.hostInput.cmdValid = false ∧ s.hostLeft = s.host) ∧
    (∀ inp, s.host = .drive inp :: rest → s.hostInput = inp ∧ s.hostLeft = rest) ∧
    (s.host = [] → s.hostInput = quietInput ∧ s.hostLeft = [])

/-- The program `run <mnemonic> <v>` from an idle block (30_encoding.md §3): it ends after the command's
latency (70_reset_and_hazards.md §4), with the command's response (40_bit_primitives.md §2,
41_binary_gap_scanner.md §1, 30_encoding.md §2). That `run .op3` is such a line is the model's reading
(DEDUCED, log 13). -/
def Obligations.RunProgramsEndWithTheirResponse : Prop :=
  ∀ (v : Int) (s : State), literalWellFormed v = true → s.fsm = .idle →
    (∃ t, runProgram Config.maxLatency (s.withHost (expandLine (.run .ctz v))) = some (1, t) ∧
      t.response = .answer (BitVec.ofNat 6 (ctz32 (literalOperand v)))) ∧
    (∃ t, runProgram Config.maxLatency (s.withHost (expandLine (.run .cto v))) = some (1, t) ∧
      t.response = .answer (BitVec.ofNat 6 (cto32 (literalOperand v)))) ∧
    (∃ t, runProgram Config.maxLatency (s.withHost (expandLine (.run .op3 v))) = some (1, t) ∧
      t.response = .error .illegalOp) ∧
    (valid (literalOperand v) = false →
      ∃ t, runProgram Config.maxLatency (s.withHost (expandLine (.run .gap v))) = some (1, t) ∧
        t.response = .error .invalidArgument) ∧
    (valid (literalOperand v) = true →
      ∃ t, runProgram Config.maxLatency (s.withHost (expandLine (.run .gap v))) =
          some (gapCount (literalOperand v) + 2, t) ∧
        t.response = .answer (BitVec.ofNat 6 (lbg (literalOperand v))))
end

