-- ==== Sys2Proof/Laws/State.lean ====
section
/-! SUPPORT. One lemma per field per update of the state, so that no later proof unfolds a record update. -/

namespace Sys2Proof.Machine

@[simp] theorem State.respond_fsm (r : U6) (st : Status) (s : State) : (s.respond r st).fsm = .idle := rfl
@[simp] theorem State.respond_done (r : U6) (st : Status) (s : State) : (s.respond r st).done = true := rfl
@[simp] theorem State.respond_result (r : U6) (st : Status) (s : State) : (s.respond r st).result = r := rfl
@[simp] theorem State.respond_status (r : U6) (st : Status) (s : State) : (s.respond r st).status = st := rfl
@[simp] theorem State.respond_cur (r : U6) (st : Status) (s : State) : (s.respond r st).cur = s.cur := rfl
@[simp] theorem State.respond_maxg (r : U6) (st : Status) (s : State) : (s.respond r st).maxg = s.maxg := rfl
@[simp] theorem State.respond_host (r : U6) (st : Status) (s : State) : (s.respond r st).host = s.host := rfl

@[simp] theorem State.respondError_fsm (st : Status) (s : State) : (s.respondError st).fsm = .idle := rfl
@[simp] theorem State.respondError_done (st : Status) (s : State) : (s.respondError st).done = true := rfl
@[simp] theorem State.respondError_result (st : Status) (s : State) : (s.respondError st).result = 0 := rfl
@[simp] theorem State.respondError_status (st : Status) (s : State) : (s.respondError st).status = st := rfl
@[simp] theorem State.respondError_cur (st : Status) (s : State) : (s.respondError st).cur = s.cur := rfl
@[simp] theorem State.respondError_maxg (st : Status) (s : State) : (s.respondError st).maxg = s.maxg := rfl
@[simp] theorem State.respondError_host (st : Status) (s : State) : (s.respondError st).host = s.host := rfl

@[simp] theorem State.startScan_fsm (c : Word) (s : State) : (s.startScan c).fsm = .scan := rfl
@[simp] theorem State.startScan_done (c : Word) (s : State) : (s.startScan c).done = false := rfl
@[simp] theorem State.startScan_result (c : Word) (s : State) : (s.startScan c).result = s.result := rfl
@[simp] theorem State.startScan_status (c : Word) (s : State) : (s.startScan c).status = s.status := rfl
@[simp] theorem State.startScan_cur (c : Word) (s : State) : (s.startScan c).cur = c := rfl
@[simp] theorem State.startScan_maxg (c : Word) (s : State) : (s.startScan c).maxg = 0 := rfl
@[simp] theorem State.startScan_host (c : Word) (s : State) : (s.startScan c).host = s.host := rfl

@[simp] theorem State.setScan_fsm (c : Word) (m : U6) (s : State) : (s.setScan c m).fsm = s.fsm := rfl
@[simp] theorem State.setScan_done (c : Word) (m : U6) (s : State) : (s.setScan c m).done = s.done := rfl
@[simp] theorem State.setScan_result (c : Word) (m : U6) (s : State) : (s.setScan c m).result = s.result := rfl
@[simp] theorem State.setScan_status (c : Word) (m : U6) (s : State) : (s.setScan c m).status = s.status := rfl
@[simp] theorem State.setScan_cur (c : Word) (m : U6) (s : State) : (s.setScan c m).cur = c := rfl
@[simp] theorem State.setScan_maxg (c : Word) (m : U6) (s : State) : (s.setScan c m).maxg = m := rfl
@[simp] theorem State.setScan_host (c : Word) (m : U6) (s : State) : (s.setScan c m).host = s.host := rfl

@[simp] theorem State.withHost_fsm (l : List HostLine) (s : State) : (s.withHost l).fsm = s.fsm := rfl
@[simp] theorem State.withHost_done (l : List HostLine) (s : State) : (s.withHost l).done = s.done := rfl
@[simp] theorem State.withHost_result (l : List HostLine) (s : State) : (s.withHost l).result = s.result := rfl
@[simp] theorem State.withHost_status (l : List HostLine) (s : State) : (s.withHost l).status = s.status := rfl
@[simp] theorem State.withHost_cur (l : List HostLine) (s : State) : (s.withHost l).cur = s.cur := rfl
@[simp] theorem State.withHost_maxg (l : List HostLine) (s : State) : (s.withHost l).maxg = s.maxg := rfl
@[simp] theorem State.withHost_host (l : List HostLine) (s : State) : (s.withHost l).host = l := rfl

@[simp] theorem State.enterReset_fsm (s : State) : (s.enterReset).fsm = .idle := rfl
@[simp] theorem State.enterReset_done (s : State) : (s.enterReset).done = false := rfl
@[simp] theorem State.enterReset_result (s : State) : (s.enterReset).result = 0 := rfl
@[simp] theorem State.enterReset_status (s : State) : (s.enterReset).status = .ok := rfl
@[simp] theorem State.enterReset_cur (s : State) : (s.enterReset).cur = 0 := rfl
@[simp] theorem State.enterReset_maxg (s : State) : (s.enterReset).maxg = 0 := rfl
@[simp] theorem State.enterReset_host (s : State) : (s.enterReset).host = s.host := rfl

@[simp] theorem completeGap_fsm (s : State) : (completeGap s).fsm = .idle := rfl
@[simp] theorem completeGap_done (s : State) : (completeGap s).done = true := rfl
@[simp] theorem completeGap_result (s : State) : (completeGap s).result = s.maxg := rfl
@[simp] theorem completeGap_status (s : State) : (completeGap s).status = .ok := rfl
@[simp] theorem completeGap_cur (s : State) : (completeGap s).cur = s.cur := rfl
@[simp] theorem completeGap_maxg (s : State) : (completeGap s).maxg = s.maxg := rfl
@[simp] theorem completeGap_host (s : State) : (completeGap s).host = s.host := rfl

@[simp] theorem iterateGap_fsm (s : State) : (iterateGap s).fsm = s.fsm := rfl
@[simp] theorem iterateGap_done (s : State) : (iterateGap s).done = s.done := rfl
@[simp] theorem iterateGap_result (s : State) : (iterateGap s).result = s.result := rfl
@[simp] theorem iterateGap_status (s : State) : (iterateGap s).status = s.status := rfl
@[simp] theorem iterateGap_cur (s : State) : (iterateGap s).cur = stripRuns s.cur := rfl
@[simp] theorem iterateGap_maxg (s : State) : (iterateGap s).maxg = maxRun s.maxg (ctz32 s.cur) := rfl
@[simp] theorem iterateGap_host (s : State) : (iterateGap s).host = s.host := rfl

@[simp] theorem State.reset_fsm : State.reset.fsm = .idle := rfl
@[simp] theorem State.reset_done : State.reset.done = false := rfl
@[simp] theorem State.reset_result : State.reset.result = 0 := rfl
@[simp] theorem State.reset_status : State.reset.status = .ok := rfl
@[simp] theorem State.reset_cur : State.reset.cur = 0 := rfl
@[simp] theorem State.reset_maxg : State.reset.maxg = 0 := rfl
@[simp] theorem State.reset_host : State.reset.host = [] := rfl

@[simp] theorem State.withHost_withHost (l l' : List HostLine) (s : State) :
    (s.withHost l).withHost l' = s.withHost l' := rfl

@[simp] theorem State.withHost_host_self (s : State) : s.withHost s.host = s := rfl

@[simp] theorem State.enterReset_enterReset (s : State) : s.enterReset.enterReset = s.enterReset := rfl

@[simp] theorem State.enterReset_withHost (l : List HostLine) (s : State) :
    (s.withHost l).enterReset = s.enterReset.withHost l := rfl

/-- Two states are equal when the seven fields are. -/
theorem State.ext_fields {s t : State} (h1 : s.fsm = t.fsm) (h2 : s.done = t.done)
    (h3 : s.result = t.result) (h4 : s.status = t.status) (h5 : s.cur = t.cur)
    (h6 : s.maxg = t.maxg) (h7 : s.host = t.host) : s = t := by
  cases s; cases t; simp_all

end Sys2Proof.Machine
end

