-- ==== Sys2Proof/Laws/BitPrimitives.lean ====
section
/-! SUPPORT. What `shr`, `ctz32` and `cto32` compute (00_scope.md R12; 40_bit_primitives.md R70, R71, R79),
and what stripping a run leaves. -/

namespace Sys2Proof.Machine

@[simp] theorem getLsbD_shr (v : Word) (s i : Nat) : (shr v s).getLsbD i = v.getLsbD (s + i) := by
  simp [shr]

theorem toNat_shr (v : Word) (s : Nat) : (shr v s).toNat = v.toNat / 2 ^ s := by
  simp [shr, Nat.shiftRight_eq_div_pow]

@[simp] theorem shr_zero (v : Word) : shr v 0 = v := by simp [shr]

theorem shr_shr (v : Word) (a b : Nat) : shr (shr v a) b = shr v (a + b) := by
  simp [shr, BitVec.shiftRight_add]

theorem shr_of_le {s : Nat} (v : Word) (h : 32 ≤ s) : shr v s = 0 :=
  BitVec.eq_of_getLsbD_eq fun i _ => by
    simp [BitVec.getLsbD_of_ge v (s + i) (by omega)]

theorem ctz32_eq_iff_of_lt {x : Word} {k : Nat} (hk : k < 32) :
    ctz32 x = k ↔ x.getLsbD k = true ∧ ∀ i < k, x.getLsbD i = false := by
  unfold ctz32
  cases h : (List.range 32).find? fun i => x.getLsbD i with
  | none =>
    simp only [List.find?_eq_none, List.mem_range] at h
    constructor
    · intro e; simp at e; omega
    · intro e; exact absurd e.1 (h k hk)
  | some j =>
    rw [List.find?_range_eq_some] at h
    obtain ⟨hj, hm, hlow⟩ := h
    simp only [Option.getD_some]
    constructor
    · rintro rfl; exact ⟨hj, fun i hi => by simpa using hlow i hi⟩
    · rintro ⟨hk1, hk2⟩
      rcases Nat.lt_trichotomy j k with hlt | heq | hgt
      · simp [hk2 j hlt] at hj
      · exact heq
      · have := hlow k hgt; simp [hk1] at this

@[simp] theorem ctz32_zero : ctz32 0#32 = 32 := by decide

theorem ctz32_le (x : Word) : ctz32 x ≤ 32 := by
  unfold ctz32
  cases h : (List.range 32).find? fun i => x.getLsbD i with
  | none => simp
  | some j => have := List.mem_of_find?_eq_some h; simp at this ⊢; omega

theorem ctz32_lt_of_getLsbD {x : Word} {i : Nat} (h : x.getLsbD i = true) : ctz32 x ≤ i := by
  by_contra hlt
  have hi : i < 32 := BitVec.lt_of_getLsbD h
  unfold ctz32 at hlt
  cases hf : (List.range 32).find? fun i => x.getLsbD i with
  | none =>
    simp only [List.find?_eq_none, List.mem_range] at hf
    exact hf i hi h
  | some j =>
    rw [hf] at hlt
    rw [List.find?_range_eq_some] at hf
    simp only [Option.getD_some, not_le] at hlt
    have := hf.2.2 i hlt
    simp [h] at this

/-- A nonzero value has a lowest one bit, and `ctz32` is its place (R70, R79 item 3). -/
theorem ctz32_lt_iff (x : Word) : ctz32 x < 32 ↔ x ≠ 0 := by
  constructor
  · rintro h rfl; exact absurd h (by decide)
  · intro h
    by_contra hge
    apply h
    refine BitVec.eq_of_getLsbD_eq fun i hi => ?_
    cases hb : x.getLsbD i with
    | false => simp
    | true => have := ctz32_lt_of_getLsbD hb; omega

theorem getLsbD_ctz32 {x : Word} (h : x ≠ 0) : x.getLsbD (ctz32 x) = true :=
  ((ctz32_eq_iff_of_lt ((ctz32_lt_iff x).2 h)).1 rfl).1

theorem getLsbD_of_lt_ctz32 {x : Word} {i : Nat} (hi : i < ctz32 x) : x.getLsbD i = false := by
  cases hb : x.getLsbD i with
  | false => rfl
  | true => have := ctz32_lt_of_getLsbD hb; omega

theorem ctz32_eq_zero_iff (x : Word) : ctz32 x = 0 ↔ x.getLsbD 0 = true := by
  simp [ctz32_eq_iff_of_lt]

@[simp] theorem ctz32_mod_64 (x : Word) : ctz32 x % 64 = ctz32 x :=
  Nat.mod_eq_of_lt (by have := ctz32_le x; omega)

/-- A count fits in the 6 bits of RESULT (R79 item 1). -/
theorem toNat_ofNat_ctz32 (x : Word) : (BitVec.ofNat 6 (ctz32 x)).toNat = ctz32 x := by simp

theorem cto32_le (x : Word) : cto32 x ≤ 32 := ctz32_le _

@[simp] theorem cto32_mod_64 (x : Word) : cto32 x % 64 = cto32 x := ctz32_mod_64 _

theorem toNat_ofNat_cto32 (x : Word) : (BitVec.ofNat 6 (cto32 x)).toNat = cto32 x := by simp

theorem complement_eq_zero_iff (x : Word) : ~~~x = 0 ↔ x = 0xFFFF_FFFF#32 := by
  constructor
  · intro h
    have := congrArg (~~~ ·) h
    simpa using this
  · rintro rfl; decide

theorem cto32_lt_iff (x : Word) : cto32 x < 32 ↔ x ≠ 0xFFFF_FFFF#32 := by
  rw [cto32, ctz32_lt_iff, Ne, complement_eq_zero_iff]

theorem getLsbD_cto32 {x : Word} (h : x ≠ 0xFFFF_FFFF#32) : x.getLsbD (cto32 x) = false := by
  have hlt := (cto32_lt_iff x).2 h
  have := getLsbD_ctz32 (x := ~~~x) (by rwa [Ne, complement_eq_zero_iff])
  rw [BitVec.getLsbD_not] at this
  simpa [cto32, show ctz32 (~~~x) < 32 from hlt] using this

theorem getLsbD_of_lt_cto32 {x : Word} {i : Nat} (hi : i < cto32 x) : x.getLsbD i = true := by
  have h32 := cto32_le x
  have := getLsbD_of_lt_ctz32 (x := ~~~x) hi
  rw [BitVec.getLsbD_not] at this
  simpa [show i < 32 by omega] using this

theorem cto32_eq_zero_iff (x : Word) : cto32 x = 0 ↔ x.getLsbD 0 = false := by
  rw [cto32, ctz32_eq_zero_iff]; simp

/-- Stripping the low zero run leaves bit 0 set (R79 item 3). -/
theorem stripZeros_getLsbD_zero {v : Word} (h : v ≠ 0) : (stripZeros v).getLsbD 0 = true := by
  rw [stripZeros, getLsbD_shr]; exact getLsbD_ctz32 h

/-- Stripping the low one run leaves bit 0 clear (R79 item 4). -/
theorem stripOnes_getLsbD_zero (v : Word) : (stripOnes v).getLsbD 0 = false := by
  by_cases h : v = 0xFFFF_FFFF#32
  · subst h; decide
  · rw [stripOnes, getLsbD_shr]; exact getLsbD_cto32 h

theorem stripRuns_getLsbD_zero (v : Word) : (stripRuns v).getLsbD 0 = false :=
  stripOnes_getLsbD_zero _

/-- What stripping both runs shifts out (41_binary_gap_scanner.md R99). -/
theorem stripRuns_eq_shr (v : Word) :
    stripRuns v = shr v (ctz32 v + cto32 (stripZeros v)) := by
  simp [stripRuns, stripOnes, stripZeros, shr_shr]

/-- A nonzero cursor loses at least one bit at each strip (R99). -/
theorem stripRuns_toNat_le {v : Word} (h : v ≠ 0) : (stripRuns v).toNat ≤ v.toNat / 2 := by
  have h0 : cto32 (stripZeros v) ≠ 0 := by
    rw [Ne, cto32_eq_zero_iff, stripZeros_getLsbD_zero h]; simp
  rw [stripRuns_eq_shr, toNat_shr]
  calc v.toNat / 2 ^ (ctz32 v + cto32 (stripZeros v))
      ≤ v.toNat / 2 ^ 1 := Nat.div_le_div_left (Nat.pow_le_pow_right (by omega) (by omega)) (by omega)
    _ = v.toNat / 2 := by simp

@[simp] theorem stripRuns_zero : stripRuns 0#32 = 0#32 := by decide

/-- A zero run in a nonzero value below `2^k` is shorter than `k` (R101). -/
theorem ctz32_lt_of_toNat_lt {v : Word} {k : Nat} (h : v ≠ 0) (hk : v.toNat < 2 ^ k) : ctz32 v < k := by
  by_contra hge
  have h1 := getLsbD_ctz32 h
  have : v.toNat.testBit (ctz32 v) = false :=
    Nat.testBit_lt_two_pow (Nat.lt_of_lt_of_le hk (Nat.pow_le_pow_right (by omega) (by omega)))
  rw [BitVec.getLsbD] at h1
  simp [this] at h1

theorem maxRun_toNat (a : U6) {b : Nat} (h : b ≤ 32) : (maxRun a b).toNat = max a.toNat b := by
  have := a.isLt
  simp only [maxRun, BitVec.toNat_ofNat]
  exact Nat.mod_eq_of_lt (by omega)

end Sys2Proof.Machine
end

