-- ==== Sys2Proof/Laws/Decode.lean ====
section
/-! SUPPORT. The fields of a command word and what the decoder makes of them (30_encoding.md R51, R52). -/

namespace Sys2Proof

theorem CommandWord.getLsbD_ofFields (op : BitVec 2) (v : Word) (i : Nat) :
    (CommandWord.ofFields op v).getLsbD i = if i < 32 then v.getLsbD i else op.getLsbD (i - 32) := by
  have := BitVec.getLsbD_append (x := op) (y := v) (i := i)
  by_cases h : i < 32 <;> simp only [h, if_true, if_false] at this ⊢ <;> exact this

@[simp] theorem CommandWord.op_ofFields (op : BitVec 2) (v : Word) :
    CommandWord.op (CommandWord.ofFields op v) = op := by
  apply BitVec.eq_of_getLsbD_eq
  intro i hi
  rw [CommandWord.op, BitVec.getLsbD_extractLsb', CommandWord.getLsbD_ofFields]
  simp [hi]

@[simp] theorem CommandWord.operand_ofFields (op : BitVec 2) (v : Word) :
    CommandWord.operand (CommandWord.ofFields op v) = v := by
  apply BitVec.eq_of_getLsbD_eq
  intro i hi
  rw [CommandWord.operand, BitVec.getLsbD_extractLsb', CommandWord.getLsbD_ofFields]
  simp [hi]

theorem CommandWord.ofFields_op_operand (w : CommandWord) :
    CommandWord.ofFields (CommandWord.op w) (CommandWord.operand w) = w := by
  apply BitVec.eq_of_getLsbD_eq
  intro i hi
  rw [CommandWord.getLsbD_ofFields, CommandWord.op, CommandWord.operand,
    BitVec.getLsbD_extractLsb', BitVec.getLsbD_extractLsb']
  by_cases h : i < 32
  · simp [h]
  · rw [if_neg h, show 32 + (i - 32) = i by omega]
    simp [show i - 32 < 2 by omega]

/-- The op fields are four different values, so the op names the mnemonic (R52). -/
theorem decodeFields_op (i : Instr) (v : Word) : decodeFields i.op v = i.mnemonic.instr v := by
  cases i <;> rfl

theorem op_eq_cases (op : BitVec 2) :
    op = 0b00#2 ∨ op = 0b01#2 ∨ op = 0b10#2 ∨ op = 0b11#2 := by
  revert op; decide

end Sys2Proof
end

