-- ==== Sys2Proof/Laws/Operands.lean ====
section
/-! SUPPORT. The readings of the `gap` operand (41_binary_gap_scanner.md R91) and the codes of FSM and
STATUS (10_state.md R22). -/

namespace Sys2Proof.Machine

theorem getLsbD_31_eq_decide (v : Word) : v.getLsbD 31 = decide (2 ^ 31 ≤ v.toNat) := by
  have := v.isLt
  rw [BitVec.getLsbD, Nat.testBit_eq_decide_div_mod_eq]
  rw [decide_eq_decide]
  omega

/-- The valid operands are the patterns 1 to 2^31 - 1 (R91). -/
theorem valid_iff_toNat (v : Word) : valid v = true ↔ 1 ≤ v.toNat ∧ v.toNat < 2 ^ 31 := by
  have h0 : v = 0 ↔ v.toNat = 0 := by
    constructor
    · rintro rfl; rfl
    · intro h; exact BitVec.eq_of_toNat_eq (by simpa using h)
  simp only [valid, getLsbD_31_eq_decide, Bool.and_eq_true, bne_iff_ne, ne_eq, h0,
    Bool.not_eq_true', decide_eq_false_iff_not]
  omega

theorem valid_ne_zero {v : Word} (h : valid v = true) : v ≠ 0 := by
  rintro rfl; exact absurd h (by decide)

/-- A valid operand's first cursor is below 2^30 (R101). -/
theorem stripRuns_lt_of_valid {v : Word} (h : valid v = true) : (stripRuns v).toNat < 2 ^ 30 := by
  have h1 := stripRuns_toNat_le (valid_ne_zero h)
  have h2 := (valid_iff_toNat v).1 h
  omega

@[simp] theorem Fsm.ofCode_code (f : Fsm) : Fsm.ofCode f.code = f := by cases f <;> rfl

@[simp] theorem Status.ofCode_code (st : Status) : Status.ofCode st.code = st := by cases st <;> rfl

end Sys2Proof.Machine
end

