-- ==== Sys2Proof/Laws/Step.lean ====
section
/-! SUPPORT. What an accepted command, an edge and a step can do, said once (10_state.md R33). -/

namespace Sys2Proof.Machine

theorem execGap_of_valid {v : Word} (s : State) (h : valid v = true) :
    execGap v s = .next (s.startScan (stripRuns v)) := by simp [execGap, h]

theorem execGap_of_invalid {v : Word} (s : State) (h : valid v = false) :
    execGap v s = .next (s.respondError .invalidArgument) := by simp [execGap, h]

theorem scanEdge_of_zero {s : State} (h : s.cur = 0) : scanEdge s = completeGap s := if_pos h

theorem scanEdge_of_ne {s : State} (h : s.cur ≠ 0) : scanEdge s = iterateGap s := if_neg h

@[simp] theorem scanEdge_host (s : State) : (scanEdge s).host = s.host := by
  unfold scanEdge; split <;> simp

/-- Everything an accepted command can do: a response, or the start of a scan. -/
theorem exec_cases {i : Instr} {s t : State} (h : exec i s = .next t) :
    (∃ r st, st ≠ .reserved ∧ r.toNat ≤ 32 ∧ t = s.respond r st) ∨
      (∃ v, i = .gap v ∧ valid v = true ∧ t = s.startScan (stripRuns v)) := by
  cases i with
  | ctz x =>
    cases h
    exact .inl ⟨_, .ok, by simp, by rw [toNat_ofNat_ctz32]; exact ctz32_le x, rfl⟩
  | cto x =>
    cases h
    exact .inl ⟨_, .ok, by simp, by rw [toNat_ofNat_cto32]; exact cto32_le x, rfl⟩
  | gap v =>
    by_cases hv : valid v = true
    · simp only [exec, execGap_of_valid s hv] at h
      cases h
      exact .inr ⟨v, rfl, hv, rfl⟩
    · simp only [exec, execGap_of_invalid s (by simpa using hv)] at h
      cases h
      exact .inl ⟨0, .invalidArgument, by simp, by simp, rfl⟩
  | op3 v =>
    cases h
    exact .inl ⟨0, .illegalOp, by simp, by simp, rfl⟩

/-- No command stops the machine. -/
theorem exec_total (i : Instr) (s : State) : ∃ t, exec i s = .next t := by
  cases i with
  | ctz x => exact ⟨_, rfl⟩
  | cto x => exact ⟨_, rfl⟩
  | gap v =>
    by_cases hv : valid v = true
    · exact ⟨_, execGap_of_valid s hv⟩
    · exact ⟨_, execGap_of_invalid s (by simpa using hv)⟩
  | op3 v => exact ⟨_, rfl⟩

theorem clockEdge_of_rst {inp : Input} (s : State) (h : inp.rst = true) :
    clockEdge inp s = .next s.enterReset := by simp [clockEdge, h]

theorem clockEdge_of_scan {inp : Input} {s : State} (h : inp.rst = false) (hs : s.fsm = .scan) :
    clockEdge inp s = .next (scanEdge s) := by simp [clockEdge, h, hs]

theorem clockEdge_of_quiet {inp : Input} {s : State} (h : inp.rst = false) (hs : s.fsm = .idle)
    (hv : inp.cmdValid = false) : clockEdge inp s = .next s := by simp [clockEdge, h, hs, hv]

theorem clockEdge_of_accepts {inp : Input} {s : State} (h : accepts inp s = true) :
    clockEdge inp s = exec (decodeWord (sampledWord inp)) s := by
  simp only [accepts, Bool.and_eq_true, Bool.not_eq_true', beq_iff_eq] at h
  simp [clockEdge, h.1.1, h.1.2, h.2]

/-- Everything one edge can do (10_state.md R33). -/
theorem clockEdge_cases {inp : Input} {s t : State} (h : clockEdge inp s = .next t) :
    (inp.rst = true ∧ t = s.enterReset) ∨
      (accepts inp s = true ∧ exec (decodeWord (sampledWord inp)) s = .next t) ∨
      (inp.rst = false ∧ s.fsm = .scan ∧ t = scanEdge s) ∨
      (inp.rst = false ∧ s.fsm = .idle ∧ inp.cmdValid = false ∧ t = s) := by
  cases hr : inp.rst with
  | true =>
    rw [clockEdge_of_rst s hr] at h
    cases h
    exact .inl ⟨rfl, rfl⟩
  | false =>
    cases hs : s.fsm with
    | scan =>
      rw [clockEdge_of_scan hr hs] at h
      cases h
      exact .inr (.inr (.inl ⟨rfl, rfl, rfl⟩))
    | idle =>
      cases hv : inp.cmdValid with
      | true =>
        have ha : accepts inp s = true := by simp [accepts, hr, hs, hv]
        rw [clockEdge_of_accepts ha] at h
        exact .inr (.inl ⟨ha, h⟩)
      | false =>
        rw [clockEdge_of_quiet hr hs hv] at h
        cases h
        exact .inr (.inr (.inr ⟨rfl, rfl, rfl, rfl⟩))

/-- An update of the response or scan registers leaves the host's lines alone. -/
theorem exec_host {i : Instr} {s t : State} (h : exec i s = .next t) : t.host = s.host := by
  rcases exec_cases h with ⟨r, st, -, -, rfl⟩ | ⟨v, -, -, rfl⟩ <;> simp

theorem clockEdge_host {inp : Input} {s t : State} (h : clockEdge inp s = .next t) :
    t.host = s.host := by
  rcases clockEdge_cases h with ⟨-, rfl⟩ | ⟨-, h⟩ | ⟨-, -, rfl⟩ | ⟨-, -, -, rfl⟩
  · simp
  · exact exec_host h
  · simp
  · rfl

/-- A run of edges is the first edge and then the rest. -/
theorem runEdges_cons {inp : Input} {ins : List Input} {s t : State}
    (h : clockEdge inp s = .next t) : runEdges (inp :: ins) s = runEdges ins t := by
  simp [runEdges, h]

theorem runEdges_append {ins ins' : List Input} {s t : State}
    (h : runEdges ins s = .next t) : runEdges (ins ++ ins') s = runEdges ins' t := by
  induction ins generalizing s with
  | nil => cases h; rfl
  | cons inp ins ih =>
    cases hc : clockEdge inp s with
    | next u =>
      rw [runEdges_cons hc] at h
      rw [List.cons_append, runEdges_cons hc, ih h]
    | fault r => cases r
    | refused r => simp [runEdges, hc] at h

theorem step_eq_clockEdge (s : State) :
    step s = clockEdge s.hostInput (s.withHost s.hostLeft) := rfl

@[simp] theorem sampledWord_offerInput (i : Instr) : sampledWord (offerInput i) = encode i := by
  simp [sampledWord, offerInput, CommandWord.ofFields_op_operand]

end Sys2Proof.Machine
end

