-- ==== Sys2Proof/Laws/HostProgram.lean ====
section
/-! SUPPORT. Which line decides the inputs of a cycle, and what it leaves (30_encoding.md R57). -/

namespace Sys2Proof.Machine

theorem pending_of_not_takesNoCycle {s : State} {l : HostLine} {rest : List HostLine}
    (h : s.host = l :: rest) (hl : takesNoCycle s l = false) : s.pending = l :: rest := by
  simp [State.pending, h, hl]

theorem pending_of_takesNoCycle {s : State} {l : HostLine} {rest : List HostLine}
    (h : s.host = l :: rest) (hl : takesNoCycle s l = true) :
    s.pending = rest.dropWhile (takesNoCycle s) := by
  simp [State.pending, h, hl]

theorem hostInput_of_pending {s : State} {l : HostLine} {rest : List HostLine}
    (h : s.pending = l :: rest) : s.hostInput = lineInput l := by
  simp [State.hostInput, h]

theorem hostLeft_of_pending {s : State} {l : HostLine} {rest : List HostLine}
    (h : s.pending = l :: rest) : s.hostLeft = lineLeft s l ++ rest := by
  simp [State.hostLeft, h]

theorem hostInput_of_ended {s : State} (h : s.pending = []) : s.hostInput = quietInput := by
  simp [State.hostInput, h]

theorem hostLeft_of_ended {s : State} (h : s.pending = []) : s.hostLeft = [] := by
  simp [State.hostLeft, h]

end Sys2Proof.Machine
end

