-- ==== Sys2Proof/Laws/PerInstr.lean ====
section
/-! SUPPORT. Facts about every instruction as it is written, one lemma per constructor. -/

namespace Sys2Proof.Laws.FieldPlacement

/-- The encoder puts the op in bits 33:32 and the operand in bits 31:0 (30_encoding.md R51). -/
def Statement (i : Instr) : Prop :=
  CommandWord.op (encode i) = i.op ∧ CommandWord.operand (encode i) = i.operand

theorem ctz (x : Word) : Statement (.ctz x) := by simp [Statement, encode]
theorem cto (x : Word) : Statement (.cto x) := by simp [Statement, encode]
theorem gap (v : Word) : Statement (.gap v) := by simp [Statement, encode]
theorem op3 (v : Word) : Statement (.op3 v) := by simp [Statement, encode]

end Sys2Proof.Laws.FieldPlacement
end

