-- ==== Sys2Proof/Tests/Slice0.lean ====
section
/-! SUPPORT. Small tests, their expected results from the spec's own tables (95_test_vectors.md) or its
encoding rules, and a witness for each statement that has hypotheses. Each runs at most one edge. -/

namespace Sys2Proof.Tests

open Sys2Proof.Machine

/-- A state with FSM = IDLE and an old response of 4 (95 L2.8). -/
def idleAfterFour : State := { State.reset with done := true, result := 4, maxg := 4 }

/-- A state in the middle of a scan (95 L2.7). -/
def scanning (c : Word) (m : U6) : State := { State.reset with fsm := .scan, cur := c, maxg := m }

/-- The same state with these host lines. -/
def hosting (lines : List HostLine) (s : State) : State := s.withHost lines

/-! ### WellFormed: each check refuses an ill-formed term -/

theorem test_wellFormed_refuses_literal_2_32 : (SourceLine.command .ctz (2 ^ 32)).wellFormed = false := by decide
theorem test_wellFormed_refuses_literal_below_minus_2_31 :
    (SourceLine.run .gap (-2 ^ 31 - 1)).wellFormed = false := by decide
theorem test_wellFormed_takes_literal_bounds :
    programWellFormed [.command .ctz (2 ^ 32 - 1), .run .gap (-2 ^ 31), .reset, .idle 3, .wait, .nop] = true := by decide
theorem test_wellFormed_refuses_program_with_bad_line :
    programWellFormed [.reset, .command .gap (2 ^ 32)] = false := by decide
theorem test_assemble_refuses_bad_literal : assemble [.command .gap (2 ^ 32)] = none := by decide
theorem test_commandWord_refuses_35_bits : commandWordWellFormed (2 ^ 34) = false := by decide

/-! ### Decode: words written out from R51 and R52 -/

-- op 00, operand 0000 0000 0000 0000 0000 0000 0010 1000
theorem test_decode_ctz : decodeWord 0b00_00000000000000000000000000101000#34 = .ctz 0x28#32 := by decide
-- op 01, operand 0000 0000 0000 0000 0000 0000 0001 0111
theorem test_decode_cto : decodeWord 0b01_00000000000000000000000000010111#34 = .cto 0x17#32 := by decide
-- op 10, operand 0000 0000 0000 0000 0000 0010 0001 0001
theorem test_decode_gap : decodeWord 0b10_00000000000000000000001000010001#34 = .gap 529#32 := by decide
-- op 11, operand 0000 0000 0000 0000 0001 0010 0011 0100
theorem test_decode_op3 : decodeWord 0b11_00000000000000000001001000110100#34 = .op3 0x1234#32 := by decide
-- op 01, operand 1000 0000 0000 0000 0000 0000 0000 0000: bit 31 is the operand's, not the op's
theorem test_decode_operand_top_bit :
    decodeWord 0b01_10000000000000000000000000000000#34 = .cto 0x8000_0000#32 := by decide
theorem test_decode_rows_disjoint :
    opcodeTable.Pairwise fun a b => (a.pattern ^^^ b.pattern) &&& a.mask &&& b.mask ≠ 0 := by decide
theorem test_decode_refuses_wide : decode (2 ^ 34) = .error .widerThanCommandWord := by rfl
theorem test_decodeTableWord_gap : decodeTableWord 40 0x2_0000_0009 = some (.gap 9#32) := by decide
theorem test_decodeTableWord_refuses_bit_34 : decodeTableWord 40 0x4_0000_0000 = none := by decide

/-! ### The instructions (95 L2.1 to L2.5, L2.8) -/

theorem test_ctz_of_zero : (nextOf (exec (.ctz 0) idleAfterFour)).map (fun t => (t.result, t.status, t.done)) =
    some (32, .ok, true) := by decide
theorem test_ctz_of_top_bit : (nextOf (exec (.ctz 0x8000_0000#32) State.reset)).map State.result = some 31 := by decide
theorem test_cto_of_all_ones : (nextOf (exec (.cto 0xFFFF_FFFF#32) State.reset)).map State.result = some 32 := by decide
theorem test_cto_of_0xFFFF7FFF : (nextOf (exec (.cto 0xFFFF_7FFF#32) idleAfterFour)).map State.result = some 15 := by decide
theorem test_op3_replaces_response : (nextOf (exec (.op3 0x1234#32) idleAfterFour)).map
    (fun t => (t.result, t.status, t.done, t.maxg)) = some (0, .illegalOp, true, 4) := by decide
theorem test_gap_of_minus_5 : (nextOf (exec (.gap 0xFFFF_FFFB#32) idleAfterFour)).map
    (fun t => (t.result, t.status, t.done, t.fsm)) = some (0, .invalidArgument, true, .idle) := by decide
-- 95 L2.8: RESULT stays 4 (stale), DONE falls, CUR = 0x4
theorem test_gap_9_starts_scan : (nextOf (exec (.gap 9) idleAfterFour)).map
    (fun t => (t.fsm, t.done, t.cur, t.maxg, t.result)) = some (.scan, false, 0x4#32, 0, 4) := by decide

/-! ### Edges of the scan (95 L2.7, L2.8) -/

theorem test_iterate_0x108 : nextOf (clockEdge quietInput (scanning 0x108#32 0)) = some (scanning 0x10#32 3) := by decide
theorem test_iterate_keeps_larger_max :
    nextOf (clockEdge (offerInput (.ctz 8)) (scanning 0x2#32 1)) = some (scanning 0x0#32 1) := by decide
theorem test_complete_29 : (nextOf (clockEdge quietInput (scanning 0 29))).map
    (fun t => (t.fsm, t.done, t.result, t.maxg)) = some (.idle, true, 29, 29) := by decide
theorem test_reset_wins_over_scan_and_offer :
    nextOf (clockEdge { offerInput (.ctz 8) with rst := true } (scanning 0x2#32 1)) = some State.reset := by decide
theorem test_idle_holds : nextOf (clockEdge quietInput idleAfterFour) = some idleAfterFour := by decide

/-! ### The function (95 L2.5, L2.6) -/

theorem test_lbg_529 : gapLengths 529#32 = [3, 4] ∧ lbg 529#32 = 4 ∧ lbgAlg 529#32 = 4 := by decide
theorem test_lbg_maximum : lbg 0x4000_0001#32 = 29 ∧ gapCount 0x4000_0001#32 = 1 := by decide +kernel
theorem test_lbg_51712 : gapLengths 51712#32 = [1, 2] := by decide
theorem test_revWindow_1162 : revWindow 1162#32 = 649#32 := by decide +kernel
theorem test_shr_by_32 : shr 0xFFFF_FFFF#32 32 = 0 := by decide

/-! ### The host -/

-- 95 P4: a command offered during a scan stays the current line
theorem test_command_held_while_busy :
    (nextOf (step (hosting [.command (.ctz 8), .wait] (scanning 0x2AAA_AAAA#32 0)))).map (fun t => (t.cur, t.host)) =
      some (0x0AAA_AAAA#32, [.command (.ctz 8), .wait]) := by decide
-- 95 P3: a wait after a one-edge command uses no cycle
theorem test_wait_uses_no_cycle :
    (nextOf (step (hosting [.wait, .command (.op3 7)] idleAfterFour))).map (fun t => (t.status, t.host)) =
      some (.illegalOp, []) := by decide
theorem test_program_of_one_wait_has_ended : (hosting [.wait] idleAfterFour).programEnded = true := by decide
theorem test_withFetchWord_runs_first :
    nextOf (step (State.reset.withFetchWord 40 0x1_FFFF_FFFF)) = some (State.reset.respond 32 .ok) := by decide
theorem test_read_run_gap : readLine "run gap 0x5555_5555".toList = some (.run .gap 0x5555_5555) := by decide
theorem test_read_op3_negative : readLine ".op3 -5".toList = some (.command .op3 (-5)) := by decide
-- R10: an underscore groups digits
theorem test_read_grouped_digits : readLine "cto 0xFFFF_7FFF".toList = some (.command .cto 0xFFFF_7FFF) := by decide
theorem test_read_refuses_unknown : readLine "clz 4".toList = none := by decide
theorem test_literal_minus_1 : literalOperand (-1) = 0xFFFF_FFFF#32 := by decide

/-! ### Witnesses: states and operands that meet a statement's hypotheses, clause by clause -/

theorem witness_OnlyThirtyFourBitNumbersDecode : (2 ^ 34 - 1 < 2 ^ 34) ∧ (2 ^ 34 ≤ 2 ^ 34) := by decide
theorem witness_EveryWordMatchesOneTableRow :
    CommandWord.op 0x0_FFFF_FFFF#34 = 0b00#2 ∧ CommandWord.op 0x1_0000_0000#34 = 0b01#2 ∧
    CommandWord.op 0x2_FFFF_FFFF#34 = 0b10#2 ∧ CommandWord.op 0x3_0000_0000#34 = 0b11#2 := by decide
theorem witness_CtzIsLowestOneBit : (0#32 = 0) ∧ (0x8000_0000#32 ≠ 0) := by decide
theorem witness_CtoIsLowestZeroBit : 0x7FFF_FFFF#32 ≠ 0xFFFF_FFFF#32 := by decide
theorem witness_BitPrimitiveLaws :
    (0x8000_0000#32 ≠ 0 ∧ 31 ≤ ctz32 0x8000_0000#32) ∧ 0x7FFF_FFFF#32 ≠ 0xFFFF_FFFF#32 := by decide
theorem witness_ShiftIsFloorDivision : (31 < 32) ∧ (32 ≤ 32) := by decide
theorem witness_CtzCommand_oddOperand : (0xFFFF_FFFF#32).getLsbD 0 = true := by decide
theorem witness_CtoCommand_evenOperand : (0#32).getLsbD 0 = false := by decide
theorem witness_GapAccept_valid :
    (1#32 ≠ 0 ∧ (1#32).getLsbD 31 = false) ∧ (0x7FFF_FFFF#32 ≠ 0 ∧ (0x7FFF_FFFF#32).getLsbD 31 = false) := by decide
theorem witness_GapAccept_invalid :
    (0#32 = 0 ∨ (0#32).getLsbD 31 = true) ∧ (0x8000_0000#32 = 0 ∨ (0x8000_0000#32).getLsbD 31 = true) ∧
    State.reset.fsm = .idle := by decide
theorem witness_BitPrimitiveStream :
    (∀ i ∈ [Instr.ctz 0, Instr.cto 1], i.mnemonic = .ctz ∨ i.mnemonic = .cto) ∧ State.reset.fsm = .idle := by decide
theorem witness_ClockEdge_reset : resetInput.rst = true := by decide
theorem witness_ClockEdge_accept :
    State.reset.fsm = .idle ∧ (offerInput (.ctz 0)).rst = false ∧ (offerInput (.ctz 0)).cmdValid = true ∧
    (offerInput (.ctz 0)).cmdOp = 0b00#2 ∧ (offerInput (.cto 0)).cmdOp = 0b01#2 ∧
    (offerInput (.gap 0)).cmdOp = 0b10#2 ∧ (offerInput (.op3 0)).cmdOp = 0b11#2 := by decide
theorem witness_ClockEdge_scan :
    (scanning 0 4).fsm = .scan ∧ (scanning 0 4).cur = 0 ∧ (scanning 2 0).fsm = .scan ∧ (scanning 2 0).cur ≠ 0 ∧
    quietInput.rst = false := by decide
theorem witness_ClockEdge_quiet :
    State.reset.fsm = .idle ∧ quietInput.rst = false ∧ quietInput.cmdValid = false := by decide
theorem witness_StepRunsDecodedCommand_offered :
    (hosting [.drive (offerInput (.cto 5))] State.reset).fsm = .idle ∧
    (hosting [.drive (offerInput (.cto 5))] State.reset).hostInput.rst = false ∧
    (hosting [.drive (offerInput (.cto 5))] State.reset).hostInput.cmdValid = true := by decide
theorem witness_StepRunsDecodedCommand_line :
    (hosting [.command (.gap 9), .wait] State.reset).fsm = .idle ∧
    (hosting [.command (.gap 9), .wait] State.reset).host = [.command (.gap 9), .wait] := by decide
theorem witness_StepRunsDecodedCommand_placed :
    State.reset.fsm = .idle ∧ decodeTableWord 40 0x3_FFFF_FFFF = some (.op3 0xFFFF_FFFF#32) := by decide
theorem witness_CommandAcceptedExactlyWhenReady :
    accepts (offerInput (.gap 9)) State.reset = true ∧ (scanning 2 0).outputs.cmdReady = false := by decide
theorem witness_CommandPortsUnseenUnlessAccepted :
    accepts quietInput State.reset = false ∧ accepts (offerInput (.ctz 8)) (scanning 2 0) = false ∧
    accepts { offerInput (.ctz 8) with rst := true } State.reset = false := by decide
theorem witness_ScanIteration :
    quietInput.rst = false ∧ (scanning 0x2000_0000#32 0).fsm = .scan ∧ (scanning 0x2000_0000#32 0).cur ≠ 0 := by decide
theorem witness_ScanCompletion :
    (offerInput (.ctz 8)).rst = false ∧ (scanning 0 29).fsm = .scan ∧ (scanning 0 29).cur = 0 := by decide
theorem witness_ResetEdge : ({ offerInput (.ctz 8) with rst := true } : Input).rst = true := by decide
theorem witness_ResetOutputs : ∃ t, resetInput.rst = true ∧ clockEdge resetInput (scanning 2 1) = .next t :=
  ⟨_, rfl, rfl⟩
theorem witness_OutputsAreFunctionsOfRegisters :
    State.reset.fsm = (State.reset.setScan 5 7).fsm ∧ State.reset.done = (State.reset.setScan 5 7).done ∧
    State.reset.result = (State.reset.setScan 5 7).result ∧
    State.reset.status = (State.reset.setScan 5 7).status := by decide
theorem witness_BootNeedsOneResetEdge : resetInput.rst = true := by decide
theorem witness_IdleBlockHolds :
    idleAfterFour.fsm = .idle ∧ noReset [quietInput, quietInput] = true ∧
    noOffer [quietInput, quietInput] = true := by decide
theorem witness_ResetAbandonsScan :
    (scanning 0 29).fsm = .scan ∧ resetInput.rst = true ∧ noOffer [quietInput, resetInput] = true := by decide
theorem witness_OperandReadings :
    valid 0x7FFF_FFFF#32 = true ∧
    (literalWellFormed (2 ^ 32 - 1) = true ∧ (0 : Int) ≤ 2 ^ 32 - 1) ∧
    (literalWellFormed 0 = true ∧ (0 : Int) ≤ 0) ∧
    (literalWellFormed (-1) = true ∧ (-1 : Int) < 0) ∧
    (literalWellFormed (-2 ^ 31) = true ∧ (-2 ^ 31 : Int) < 0) := by decide
theorem witness_StatusCodes_response :
    ∃ t, exec (.gap 0) State.reset = .next t ∧ t.done = true ∧ t.status ≠ .ok := ⟨_, rfl, by decide⟩
theorem witness_StatusCodes_start : ∃ t, valid 9#32 = true ∧ exec (.gap 9) State.reset = .next t :=
  ⟨_, by decide, rfl⟩
theorem witness_StatusCodes_completing :
    quietInput.rst = false ∧ (scanning 0 4).fsm = .scan ∧ (scanning 0 4).cur = 0 := by decide
theorem witness_StatusCodes_iterating :
    (offerInput (.op3 0)).rst = false ∧ (scanning 2 0).fsm = .scan ∧ (scanning 2 0).cur ≠ 0 := by decide
theorem witness_StatusCodes_validGap :
    valid 1#32 = true ∧ accepts (offerInput (.gap 1)) State.reset = true ∧
    decodeWord (sampledWord (offerInput (.gap 1))) = .gap 1 ∧ noReset [quietInput] = true ∧
    [quietInput].length = gapCount 1#32 + 1 := by decide
theorem witness_ErrorsChangeOnlyTheResponse :
    (accepts (offerInput (.op3 0)) State.reset = true ∧
      decodeWord (sampledWord (offerInput (.op3 0))) = .op3 0) ∧
    (accepts (offerInput (.gap 0x8000_0000#32)) State.reset = true ∧
      decodeWord (sampledWord (offerInput (.gap 0x8000_0000#32))) = .gap 0x8000_0000#32 ∧
      valid 0x8000_0000#32 = false) := by decide
theorem witness_ErrorResponses_status : (State.reset.respondError .illegalOp).status ≠ .ok := by decide
theorem witness_ErrorResponses_gap : ∃ t, sval 0 < 1 ∧ exec (.gap 0) State.reset = .next t :=
  ⟨_, by decide, rfl⟩
theorem witness_ErrorResponses_op3 : ∃ t, exec (.op3 0) State.reset = .next t := ⟨_, rfl⟩
theorem witness_FlagsChange_falls : ∃ t, (offerInput (.gap 9)).rst = false ∧
    clockEdge (offerInput (.gap 9)) idleAfterFour = .next t ∧ idleAfterFour.done = true ∧ t.done = false ∧
    StartingEdge (offerInput (.gap 9)) idleAfterFour :=
  ⟨_, rfl, rfl, rfl, rfl, by decide, 9, by decide, by decide⟩
theorem witness_FlagsChange_rises : ∃ t, quietInput.rst = false ∧
    clockEdge quietInput (scanning 0 4) = .next t ∧ (scanning 0 4).done = false ∧ t.done = true ∧
    t.result ≠ (scanning 0 4).result ∧ RespondingEdge quietInput (scanning 0 4) :=
  ⟨_, rfl, rfl, rfl, rfl, by decide, .inr ⟨rfl, rfl, rfl⟩⟩
theorem witness_FlagsChange_accept : ∃ t, clockEdge (offerInput (.gap 0)) State.reset = .next t ∧
    t.status ≠ State.reset.status ∧ RespondingEdge (offerInput (.gap 0)) State.reset :=
  ⟨_, rfl, by decide, .inl ⟨by decide, .inr (.inr (.inr ⟨0, by decide, by decide⟩))⟩⟩
theorem witness_FlagsChange_reset : ∃ t, resetInput.rst = true ∧
    clockEdge resetInput idleAfterFour = .next t := ⟨_, rfl, rfl⟩
theorem witness_ScanEntersAndLeaves :
    State.reset.fsm = .idle ∧ (scanning 0 4).fsm = .scan := by decide
theorem witness_EveryStepKeepsLegal_edge : ∃ t, (scanning 0x2000_0000#32 29).Legal ∧
    clockEdge quietInput (scanning 0x2000_0000#32 29) = .next t := ⟨_, by decide, rfl⟩
theorem witness_EveryStepKeepsLegal_step : ∃ t, (hosting [.command (.gap 9)] State.reset).Legal ∧
    step (hosting [.command (.gap 9)] State.reset) = .next t := ⟨_, by decide, rfl⟩
theorem witness_RegistersBoundedAfterReset : AfterReset (scanning 2 1).enterReset ∧
    AfterReset (State.reset.startScan (stripRuns 9)) :=
  ⟨.reset _, .edge (offerInput (.gap 9)) _ _ (.reset State.reset) rfl⟩
theorem witness_EarlierCommandCompletes : ∃ t, accepts (offerInput (.ctz 8)) State.reset = true ∧
    noReset [quietInput] = true ∧ runEdges [offerInput (.ctz 8), quietInput] State.reset = .next t ∧
    accepts (offerInput (.cto 1)) t = true := ⟨_, by decide, by decide, rfl, by decide⟩
theorem witness_ScanConsumesGaps_first :
    valid 529#32 = true ∧ accepts (offerInput (.gap 529)) idleAfterFour = true ∧
    decodeWord (sampledWord (offerInput (.gap 529))) = .gap 529 ∧ noReset [] = true ∧
    ([] : List Input).length ≤ gapCount 529#32 ∧ (gaps 529#32)[([] : List Input).length]? = some (1, 4) := by decide
theorem witness_ScanConsumesGaps_last :
    valid 529#32 = true ∧ noReset [quietInput, offerInput (.ctz 8)] = true ∧
    [quietInput, offerInput (.ctz 8)].length = gapCount 529#32 := by decide
theorem witness_EveryStepKeepsScan_first : (scanning 0x108#32 0).ScansOperand 529 0 ∧ 0 < gapCount 529#32 := by decide
theorem witness_EveryStepKeepsScan_last : (scanning 0 4).ScansOperand 529 2 ∧ 2 = gapCount 529#32 := by decide
theorem witness_EveryStepKeepsScan_inv : ∃ t u, (scanning 0x108#32 0).ScanInv ∧
    clockEdge quietInput (scanning 0x108#32 0) = .next t ∧ step (scanning 0x108#32 0) = .next u :=
  ⟨_, _, fun _ => ⟨529, 0, by decide⟩, rfl, rfl⟩
theorem witness_GapAnswers_valid :
    accepts (offerInput (.gap 9)) State.reset = true ∧
    decodeWord (sampledWord (offerInput (.gap 9))) = .gap 9 ∧ noReset [quietInput, quietInput] = true ∧
    valid 9#32 = true ∧ [quietInput].length ≤ gapCount 9#32 ∧
    [quietInput, quietInput].length = gapCount 9#32 + 1 := by decide
theorem witness_GapAnswers_invalid :
    accepts (offerInput (.gap 0)) State.reset = true ∧
    decodeWord (sampledWord (offerInput (.gap 0))) = .gap 0 ∧ valid 0#32 = false := by decide
theorem witness_validOperands :
    valid 1#32 = true ∧ valid 0x7FFF_FFFF#32 = true ∧ valid 0x5555_5555#32 = true ∧
    valid 0x4000_0001#32 = true := by decide
theorem witness_LongestGap_scan : ∃ t, valid 0x4000_0001#32 = true ∧
    accepts (offerInput (.gap 0x4000_0001#32)) State.reset = true ∧
    decodeWord (sampledWord (offerInput (.gap 0x4000_0001#32))) = .gap 0x4000_0001#32 ∧
    noReset [] = true ∧ runEdges [offerInput (.gap 0x4000_0001#32)] State.reset = .next t ∧
    ([] : List Input).length ≤ gapCount 0x4000_0001#32 ∧ t.cur ≠ 0 :=
  ⟨_, by decide, by decide, by decide, by decide, rfl, by decide, by decide⟩
theorem witness_Reversal : valid 20#32 = true ∧ 2 < significantBits 20#32 ∧ 2 ≤ significantBits 20#32 ∧
    4 ≤ significantBits 20#32 := by decide
theorem witness_ShiftAmounts :
    valid 0x7FFF_FFFF#32 = true ∧ valid 5#32 = true ∧ scanCursor 5 0 ≠ 0 ∧ 0xFFFF_FFFF#32 ≠ 0 ∧
    0xA000_0001#32 ≠ 0 ∧ scanCursor 0xA000_0001#32 0 ≠ 0 := by decide
theorem witness_AcceptedCommandsComplete :
    accepts (offerInput (.gap 9)) State.reset = true ∧ noReset (List.replicate 16 quietInput) = true ∧
    Config.maxLatency ≤ (List.replicate 16 quietInput).length + 1 := by decide
theorem witness_GapResponse_valid :
    accepts (offerInput (.gap 9)) State.reset = true ∧ accepts (offerInput (.gap 9)) idleAfterFour = true ∧
    decodeWord (sampledWord (offerInput (.gap 9))) = .gap 9 ∧
    noReset [quietInput, quietInput] = true ∧ noReset [offerInput (.ctz 8), quietInput] = true ∧
    [quietInput, quietInput].length = [offerInput (.ctz 8), quietInput].length ∧
    (valid 9#32 = true → [quietInput, quietInput].length ≤ gapCount 9#32 + 1) ∧
    (valid 9#32 = false → [quietInput, quietInput] = []) := by decide
theorem witness_GapResponse_invalid :
    accepts (offerInput (.gap 0)) State.reset = true ∧ accepts (offerInput (.gap 0)) idleAfterFour = true ∧
    decodeWord (sampledWord (offerInput (.gap 0))) = .gap 0 ∧ noReset [] = true ∧
    (valid 0#32 = true → ([] : List Input).length ≤ gapCount 0#32 + 1) ∧
    (valid 0#32 = false → ([] : List Input) = []) := by decide
theorem witness_LeftoverScanRegisters : idleAfterFour.fsm = .idle := by decide
theorem witness_HostLines :
    (hosting [.command (.ctz 1)] State.reset).host = [.command (.ctz 1)] ∧ State.reset.fsm = .idle ∧
    (hosting [.command (.ctz 1)] (scanning 2 0)).fsm = .scan ∧
    (hosting [.reset] State.reset).host = [.reset] ∧ (hosting [.idle 1] State.reset).host = [.idle (0 + 1)] ∧
    (hosting [.idle 0] State.reset).host = [.idle 0] ∧
    ((hosting [.wait] idleAfterFour).host = [.wait] ∧ (hosting [.wait] idleAfterFour).done = true ∧
      (hosting [.wait] idleAfterFour).fsm = .idle) ∧
    ((hosting [.wait] State.reset).host = [.wait] ∧ (hosting [.wait] State.reset).done = false) ∧
    (hosting [.drive resetInput] State.reset).host = [.drive resetInput] ∧ State.reset.host = [] := by decide
theorem witness_RunPrograms :
    (literalWellFormed 0x4000_0001 = true ∧ valid (literalOperand 0x4000_0001) = true) ∧
    (literalWellFormed (-5) = true ∧ valid (literalOperand (-5)) = false) ∧
    (literalWellFormed 0 = true ∧ valid (literalOperand 0) = false) ∧ State.reset.fsm = .idle := by decide

end Sys2Proof.Tests
end

section
/-! PROOF. The handshake, the output ports and FSM (10_state.md R23, R27, R28, R33). -/

namespace Sys2Proof.Machine

/-! ### The output ports -/

@[simp] theorem State.outputs_rspValid (s : State) : s.outputs.rspValid = s.done := rfl
@[simp] theorem State.outputs_rspResult (s : State) : s.outputs.rspResult = s.result := rfl
@[simp] theorem State.outputs_rspStatus (s : State) : s.outputs.rspStatus = s.status.code := rfl

@[simp] theorem State.outputs_cmdReady (s : State) : s.outputs.cmdReady = decide (s.fsm = .idle) := by
  cases hs : s.fsm <;> simp [State.outputs, hs]

/-- No port depends on CUR, MAXG or the host's lines. -/
theorem State.outputs_congr {s u : State} (hf : s.fsm = u.fsm) (hd : s.done = u.done)
    (hr : s.result = u.result) (hs : s.status = u.status) : s.outputs = u.outputs := by
  simp only [State.outputs, hf, hd, hr, hs]

/-- FSM has two values. -/
theorem Fsm.ne_idle_iff (f : Fsm) : f ≠ .idle ↔ f = .scan := by cases f <;> decide

/-! ### The handshake -/

theorem accepts_iff (inp : Input) (s : State) :
    accepts inp s = true ↔ inp.rst = false ∧ inp.cmdValid = true ∧ s.fsm = .idle := by
  simp [accepts, and_assoc]

/-- An edge that finds FSM = SCAN reads no port but `rst`. -/
theorem clockEdge_congr_of_scan {inp inp' : Input} {s : State} (hs : s.fsm = .scan)
    (hr : inp.rst = inp'.rst) : clockEdge inp s = clockEdge inp' s := by
  cases h : inp.rst with
  | true => rw [clockEdge_of_rst s h, clockEdge_of_rst s (hr ▸ h)]
  | false => rw [clockEdge_of_scan h hs, clockEdge_of_scan (hr ▸ h) hs]

/-! ### Where FSM changes -/

theorem exec_gap_of_valid {v : Word} (s : State) (hv : valid v = true) :
    exec (.gap v) s = .next (s.startScan (stripRuns v)) := execGap_of_valid s hv

/-- Of the accepted commands, a valid `gap` alone starts a scan. -/
theorem exec_fsm_scan_iff {i : Instr} {s t : State} (h : exec i s = .next t) :
    t.fsm = .scan ↔ ∃ v, i = .gap v ∧ valid v = true := by
  constructor
  · intro ht
    rcases exec_cases h with ⟨r, st, -, -, rfl⟩ | ⟨v, hi, hv, -⟩
    · simp at ht
    · exact ⟨v, hi, hv⟩
  · rintro ⟨v, rfl, hv⟩
    rw [exec_gap_of_valid s hv] at h
    cases h
    rfl

/-- A scan ends at the edge that finds CUR = 0. -/
theorem scanEdge_fsm_idle_iff {s : State} (hs : s.fsm = .scan) :
    (scanEdge s).fsm = .idle ↔ s.cur = 0 := by
  by_cases hc : s.cur = 0
  · simp [scanEdge_of_zero hc, hc]
  · simpa [scanEdge_of_ne hc, hs] using hc

/-- No edge stops the machine. -/
theorem clockEdge_total (inp : Input) (s : State) : ∃ t, clockEdge inp s = .next t := by
  cases ha : accepts inp s with
  | true => rw [clockEdge_of_accepts ha]; exact exec_total _ s
  | false =>
    cases hr : inp.rst with
    | true => exact ⟨_, clockEdge_of_rst s hr⟩
    | false =>
      cases hs : s.fsm with
      | scan => exact ⟨_, clockEdge_of_scan hr hs⟩
      | idle =>
        have hv : inp.cmdValid = false := by simpa [accepts, hr, hs] using ha
        exact ⟨_, clockEdge_of_quiet hr hs hv⟩

theorem clockEdge_fsm_scan_iff {inp : Input} {s t : State} (h : clockEdge inp s = .next t)
    (hs : s.fsm = .idle) : t.fsm = .scan ↔ StartingEdge inp s := by
  cases ha : accepts inp s with
  | true =>
    rw [clockEdge_of_accepts ha] at h
    simp [exec_fsm_scan_iff h, StartingEdge, ha]
  | false =>
    rcases clockEdge_cases h with ⟨-, rfl⟩ | ⟨ha', -⟩ | ⟨-, hs', -⟩ | ⟨-, -, -, rfl⟩
    · simp [StartingEdge, ha]
    · simp [ha] at ha'
    · simp [hs] at hs'
    · simp [StartingEdge, ha, hs]

theorem clockEdge_fsm_idle_iff {inp : Input} {s t : State} (h : clockEdge inp s = .next t)
    (hs : s.fsm = .scan) : t.fsm = .idle ↔ inp.rst = true ∨ s.cur = 0 := by
  cases hr : inp.rst with
  | true =>
    rw [clockEdge_of_rst s hr] at h
    cases h
    simp
  | false =>
    rw [clockEdge_of_scan hr hs] at h
    cases h
    simp [scanEdge_fsm_idle_iff hs]

/-! ### The obligations -/

/-- Settles O25, port by port. -/
theorem outputsAreFunctionsOfRegisters : Obligations.OutputsAreFunctionsOfRegisters :=
  ⟨fun s => ⟨s.outputs_cmdReady, s.outputs_rspValid, s.outputs_rspResult, s.outputs_rspStatus⟩,
    fun _ _ => State.outputs_congr⟩

/-- Settles O19: with `cmd_ready` = 0 FSM is SCAN, and such an edge does not read `cmd_valid`. -/
theorem commandAcceptedExactlyWhenReady : Obligations.CommandAcceptedExactlyWhenReady := by
  intro inp s
  refine ⟨accepts_iff inp s, by simp, clockEdge_of_accepts, fun hready => ?_⟩
  have hs : s.fsm = .scan := (Fsm.ne_idle_iff _).mp (by simpa using hready)
  exact clockEdge_congr_of_scan hs rfl

/-- Settles O35: from IDLE only a starting edge leads to SCAN, from SCAN only a reset or a completing
edge leads to IDLE. -/
theorem scanEntersAndLeavesOnlyAsListed : Obligations.ScanEntersAndLeavesOnlyAsListed := by
  intro inp s
  obtain ⟨t, h⟩ := clockEdge_total inp s
  exact ⟨t, h, clockEdge_fsm_scan_iff h, clockEdge_fsm_idle_iff h⟩

end Sys2Proof.Machine
end

section
/-! PROOF. The opcode table and the encoding examples (30_encoding.md R52, R59). -/

namespace Sys2Proof

/-! ### The command that an op selects -/

@[simp] theorem Mnemonic.instr_mnemonic (m : Mnemonic) (v : Word) : (m.instr v).mnemonic = m := by
  cases m <;> rfl

/-- The op of a mnemonic's commands, the same for every operand. -/
def Mnemonic.op (m : Mnemonic) : BitVec 2 := (m.instr 0).op

theorem CommandWord.exists_mnemonic_op (w : CommandWord) : ∃ m : Mnemonic, CommandWord.op w = m.op := by
  rcases op_eq_cases (CommandWord.op w) with h | h | h | h
  · exact ⟨.ctz, h⟩
  · exact ⟨.cto, h⟩
  · exact ⟨.gap, h⟩
  · exact ⟨.op3, h⟩

theorem decodeWord_of_op {w : CommandWord} {m : Mnemonic} (h : CommandWord.op w = m.op) :
    decodeWord w = m.instr (CommandWord.operand w) := by
  rw [decodeWord, h, Mnemonic.op, decodeFields_op, Mnemonic.instr_mnemonic]

/-! ### The rows of the table -/

/-- The one mask of the table keeps bits 33:32 and clears the operand. -/
theorem CommandWord.and_opMask (w : CommandWord) :
    w &&& 0x3_0000_0000#34 = CommandWord.ofFields (CommandWord.op w) 0 := by
  have hmask : 0x3_0000_0000#34 = BitVec.allOnes 2 ++ 0#32 := by decide
  calc w &&& 0x3_0000_0000#34
      = (CommandWord.op w ++ CommandWord.operand w) &&& (BitVec.allOnes 2 ++ 0#32) := by
        rw [← hmask]; exact congrArg (· &&& _) (ofFields_op_operand w).symm
    _ = CommandWord.ofFields (CommandWord.op w) 0 := by
        rw [BitVec.and_append, BitVec.and_allOnes, BitVec.and_zero]; rfl

theorem opcodeTable_rows {r : OpcodeRow} (hr : r ∈ opcodeTable) :
    r.mask = 0x3_0000_0000#34 ∧ r.pattern = CommandWord.ofFields r.mnemonic.op 0 := by
  revert r; decide

theorem OpcodeRow.accepts_eq_of_mem {r : OpcodeRow} (hr : r ∈ opcodeTable) (w : CommandWord) :
    r.accepts w = decide (CommandWord.op w = r.mnemonic.op) := by
  obtain ⟨hmask, hpattern⟩ := opcodeTable_rows hr
  have hinj : CommandWord.ofFields (CommandWord.op w) 0 = CommandWord.ofFields r.mnemonic.op 0 ↔
      CommandWord.op w = r.mnemonic.op :=
    ⟨fun h => by simpa using congrArg CommandWord.op h, fun h => by rw [h]⟩
  rw [OpcodeRow.accepts, hmask, hpattern, CommandWord.and_opMask, beq_eq_decide, decide_eq_decide]
  exact hinj

/-- The table has one row per mnemonic, no two with the same op. -/
theorem opcodeTable_filter_op (m : Mnemonic) :
    (opcodeTable.filter fun r => decide (m.op = r.mnemonic.op)).map OpcodeRow.mnemonic = [m] := by
  cases m <;> decide

theorem opcodeTable_filter_accepts {w : CommandWord} {m : Mnemonic} (h : CommandWord.op w = m.op) :
    (opcodeTable.filter fun r => r.accepts w).map OpcodeRow.mnemonic = [m] := by
  rw [List.filter_congr fun r hr => OpcodeRow.accepts_eq_of_mem hr w, h, opcodeTable_filter_op]

/-! ### The obligations -/

/-- Settles O3: a row of the table accepts the words with its mnemonic's op, and decoding goes by the
same op. -/
theorem everyWordMatchesOneTableRow : Obligations.EveryWordMatchesOneTableRow := by
  intro w
  obtain ⟨m, hm⟩ := CommandWord.exists_mnemonic_op w
  refine ⟨?_, decodeWord_of_op (m := .ctz), decodeWord_of_op (m := .cto),
    decodeWord_of_op (m := .gap), decodeWord_of_op (m := .op3)⟩
  rw [decodeWord_of_op hm, Mnemonic.instr_mnemonic, opcodeTable_filter_accepts hm]

/-- Settles O1: six fixed words, read and written by evaluating the decoder and the encoder. -/
theorem listedCommandWordsDecode : Obligations.ListedCommandWordsDecode := by
  unfold Obligations.ListedCommandWordsDecode
  decide

end Sys2Proof
end

section
/-! PROOF. The lowest one bit and the lowest zero bit (40_bit_primitives.md R70, R71, R79). -/

namespace Sys2Proof.Machine

/-! ### The place that `ctz32` names -/

theorem isLeast_ctz32 {x : Word} (h : x ≠ 0) :
    IsLeast {i : Nat | i ≤ 31 ∧ x.getLsbD i = true} (ctz32 x) :=
  ⟨⟨Nat.le_of_lt_succ ((ctz32_lt_iff x).2 h), getLsbD_ctz32 h⟩,
    fun _ hi => ctz32_lt_of_getLsbD hi.2⟩

/-- Within the word, a one bit of the complement is a zero bit. -/
theorem getLsbD_complement_iff {x : Word} {i : Nat} (hi : i ≤ 31) :
    (~~~x).getLsbD i = true ↔ x.getLsbD i = false := by
  simp [Nat.lt_succ_of_le hi]

/-- What a shift inside the low zero run leaves of it (R79 item 7). -/
theorem ctz32_shr {x : Word} {k : Nat} (h : x ≠ 0) (hk : k ≤ ctz32 x) :
    ctz32 (shr x k) = ctz32 x - k := by
  have hlt := (ctz32_lt_iff x).2 h
  rw [ctz32_eq_iff_of_lt (by omega), getLsbD_shr, Nat.add_sub_cancel' hk]
  refine ⟨getLsbD_ctz32 h, fun i hi => ?_⟩
  rw [getLsbD_shr, getLsbD_of_lt_ctz32 (by omega)]

/-- The low `k` bits are clear exactly when the low zero run has at least `k` bits. -/
theorem toNat_mod_two_pow_eq_zero_iff (x : Word) {k : Nat} (hk : k ≤ 32) :
    x.toNat % 2 ^ k = 0 ↔ k ≤ ctz32 x := by
  constructor
  · intro h
    by_contra! hlt
    have hbit : (x.toNat % 2 ^ k).testBit (ctz32 x) = true := by
      rw [Nat.testBit_mod_two_pow, decide_eq_true hlt, Bool.true_and]
      exact getLsbD_ctz32 ((ctz32_lt_iff x).1 (by omega))
    simp [h] at hbit
  · intro h
    refine Nat.zero_of_testBit_eq_false fun i => ?_
    rw [Nat.testBit_mod_two_pow]
    by_cases hi : i < k
    · rw [← BitVec.getLsbD, getLsbD_of_lt_ctz32 (by omega), Bool.and_false]
    · rw [decide_eq_false hi, Bool.false_and]

theorem lowestSetBit_eq_and_neg (x : Word) : lowestSetBit x = x &&& -x :=
  congrArg (x &&& ·) (BitVec.zero_sub x)

/-- The lowest set bit alone is a power of two (R79 item 8); at 0 both sides are 0. -/
theorem lowestSetBit_eq_two_pow (x : Word) : lowestSetBit x = BitVec.ofNat 32 (2 ^ ctz32 x) := by
  refine BitVec.eq_of_getLsbD_eq fun i hi => ?_
  rw [lowestSetBit_eq_and_neg, BitVec.getLsbD_and, BitVec.getLsbD_neg, BitVec.getLsbD_ofNat,
    Nat.testBit_two_pow]
  rcases Nat.lt_trichotomy i (ctz32 x) with hlt | heq | hgt
  · simp [getLsbD_of_lt_ctz32 hlt, Nat.ne_of_gt hlt]
  · have hbit : x.getLsbD i = true := heq ▸ getLsbD_ctz32 ((ctz32_lt_iff x).1 (heq ▸ hi))
    have hlow : ¬∃ j < i, x.getLsbD j = true := by
      rintro ⟨j, hj, hone⟩
      simp [getLsbD_of_lt_ctz32 (heq ▸ hj)] at hone
    simp [hbit, hlow, hi, heq.symm]
  · have hlow : ∃ j < i, x.getLsbD j = true :=
      ⟨_, hgt, getLsbD_ctz32 ((ctz32_lt_iff x).1 (by omega))⟩
    simp [hlow, hi, Nat.ne_of_lt hgt]

/-! ### The obligations -/

/-- Settles O5. -/
theorem ctzIsLowestOneBit : Obligations.CtzIsLowestOneBit :=
  fun x => ⟨by rintro rfl; exact ctz32_zero, isLeast_ctz32, ctz32_le x⟩

/-- Settles O6: the zero bits of `x` are the one bits of its complement. -/
theorem ctoIsLowestZeroBit : Obligations.CtoIsLowestZeroBit := by
  intro x
  refine ⟨rfl, by rintro rfl; decide, fun h => ?_⟩
  have hleast := isLeast_ctz32 (mt (complement_eq_zero_iff x).1 h)
  have hset : {i : Nat | i ≤ 31 ∧ (~~~x).getLsbD i = true} =
      {i | i ≤ 31 ∧ x.getLsbD i = false} :=
    Set.ext fun _ => and_congr_right getLsbD_complement_iff
  rwa [hset] at hleast

end Sys2Proof.Machine
end

section
/-! PROOF. The four formulations of `ctz32` (40_bit_primitives.md R77) and the de Bruijn table (R78). -/

namespace Sys2Proof.Machine

/-! ### (a) de Bruijn -/

/-- The entry at the window of `2^k` is `k` (R78). -/
theorem deBruijnTable_deBruijnIndex_two_pow :
    ∀ k < 32, deBruijnTable[deBruijnIndex (BitVec.ofNat 32 (2 ^ k))]? = some k := by decide

theorem ctzDeBruijn_eq_ctz32 (x : Word) : ctzDeBruijn x = ctz32 x := by
  by_cases h : x = 0
  · rw [ctzDeBruijn, if_pos h, h]; exact ctz32_zero.symm
  · rw [ctzDeBruijn, if_neg h, ctzDeBruijnRaw, lowestSetBit_eq_two_pow,
      List.getD_eq_getElem?_getD,
      deBruijnTable_deBruijnIndex_two_pow _ ((ctz32_lt_iff x).2 h), Option.getD_some]

/-! ### (b) halves -/

/-- The invariant of the halving loop for the pair of its count and its rest: the zeros counted and the
zeros still at the low end of the rest are those of `x`, and fewer than `bound` are still there. -/
def HalvesInv (x : Word) (bound : Nat) (cv : Nat × Word) : Prop :=
  cv.1 + ctz32 cv.2 = ctz32 x ∧ ctz32 cv.2 < bound

/-- A test of `k` bits halves the bound on the zeros still there. -/
theorem HalvesInv.halvesStep {x : Word} {k : Nat} {cv : Nat × Word} (hk : k ≤ 16)
    (h : HalvesInv x (2 * k) cv) : HalvesInv x k (halvesStep cv k) := by
  obtain ⟨hsum, hlt⟩ := h
  have htest := toNat_mod_two_pow_eq_zero_iff cv.2 (k := k) (by omega)
  by_cases hlow : k ≤ ctz32 cv.2
  · have hrest := ctz32_shr ((ctz32_lt_iff cv.2).1 (by omega)) hlow
    rw [Machine.halvesStep, if_pos (htest.2 hlow)]
    constructor <;> dsimp only <;> omega
  · rw [Machine.halvesStep, if_neg (mt htest.1 hlow)]
    exact ⟨hsum, Nat.lt_of_not_le hlow⟩

theorem ctzHalvesRaw_eq_ctz32 {x : Word} (h : x ≠ 0) : ctzHalvesRaw x = ctz32 x := by
  have hstart : HalvesInv x (2 * 16) (0, x) := ⟨Nat.zero_add _, (ctz32_lt_iff x).2 h⟩
  have h16 := hstart.halvesStep (by omega)
  have h8 := HalvesInv.halvesStep (k := 8) (by omega) h16
  have h4 := HalvesInv.halvesStep (k := 4) (by omega) h8
  have h2 := HalvesInv.halvesStep (k := 2) (by omega) h4
  obtain ⟨hsum, hlt⟩ := HalvesInv.halvesStep (k := 1) (by omega) h2
  rw [Nat.lt_one_iff.1 hlt, Nat.add_zero] at hsum
  exact hsum

theorem ctzHalves_eq_ctz32 (x : Word) : ctzHalves x = ctz32 x := by
  by_cases h : x = 0
  · rw [ctzHalves, if_pos h, h]; exact ctz32_zero.symm
  · rw [ctzHalves, if_neg h, ctzHalvesRaw_eq_ctz32 h]

/-! ### (c) popcount -/

/-- A mask of the low `k` bits has `k` one bits. -/
theorem popcount_two_pow_sub_one {k : Nat} (hk : k ≤ 32) :
    popcount (BitVec.ofNat 32 (2 ^ k - 1)) = k := by
  have hbit : ∀ i ∈ List.range 32, (BitVec.ofNat 32 (2 ^ k - 1)).getLsbD i = decide (i < k) := by
    intro i hi
    rw [BitVec.getLsbD_ofNat, Nat.testBit_two_pow_sub_one, decide_eq_true (List.mem_range.1 hi),
      Bool.true_and]
  rw [popcount, List.filter_congr hbit, ← List.Ico.zero_bot, List.Ico.filter_lt, List.Ico.length,
    Nat.min_eq_right hk, Nat.sub_zero]

theorem ctzPopcount_eq_ctz32 (x : Word) : ctzPopcount x = ctz32 x := by
  have hmask : lowestSetBit x - 1 = BitVec.ofNat 32 (2 ^ ctz32 x - 1) := by
    rw [lowestSetBit_eq_two_pow]
    exact BitVec.ofNat_sub_ofNat_of_le _ 1 (by decide) Nat.one_le_two_pow
  rw [ctzPopcount, hmask, popcount_two_pow_sub_one (ctz32_le x)]

/-! ### (d) linear -/

/-- From a place not above the lowest one bit, with all bits above it left to test, the loop finds that
bit. -/
theorem linearScan_eq_ctz32 (x : Word) {left c : Nat} (hleft : c + left = 32) (hc : c ≤ ctz32 x) :
    linearScan x left c = ctz32 x := by
  induction left generalizing c with
  | zero =>
    have := ctz32_le x
    rw [linearScan]
    omega
  | succ left ih =>
    rw [linearScan]
    split
    · next hone => exact Nat.le_antisymm hc (ctz32_lt_of_getLsbD hone)
    · next hzero =>
      have hne : c ≠ ctz32 x := by
        rintro rfl
        exact hzero (getLsbD_ctz32 ((ctz32_lt_iff x).1 (by omega)))
      exact ih (by omega) (by omega)

/-! ### The obligations -/

/-- Settles O10: a table of 32 entries, read at 32 indices, by evaluation. -/
theorem deBruijnTableFollowsFromConstant : Obligations.DeBruijnTableFollowsFromConstant :=
  ⟨by decide, deBruijnTable_deBruijnIndex_two_pow, by decide⟩

/-- Settles O9: each formulation equals `ctz32`, and the two without their zero case are evaluated
at 0. -/
theorem ctzFormulationsAgree : Obligations.CtzFormulationsAgree :=
  ⟨fun x => ⟨ctzDeBruijn_eq_ctz32 x, ctzHalves_eq_ctz32 x, ctzPopcount_eq_ctz32 x,
    linearScan_eq_ctz32 x rfl (Nat.zero_le _)⟩, by decide, by decide⟩

end Sys2Proof.Machine
end

section
/-! PROOF. Commands offered one a cycle, and streams of `ctz` and `cto` (40_bit_primitives.md R80). -/

namespace Sys2Proof

/-- What is encoded is decoded again (30_encoding.md R52). -/
@[simp] theorem decodeWord_encode (i : Instr) : decodeWord (encode i) = i := by
  rw [decodeWord, encode, CommandWord.op_ofFields, CommandWord.operand_ofFields, decodeFields_op]
  cases i <;> rfl

namespace Machine

/-- From IDLE, an offered command is accepted at its edge. -/
theorem clockEdge_offerInput (i : Instr) {s : State} (hs : s.fsm = .idle) :
    clockEdge (offerInput i) s = exec i s := by
  rw [clockEdge_of_accepts ((accepts_iff _ s).2 ⟨rfl, rfl, hs⟩), sampledWord_offerInput,
    decodeWord_encode]

/-- Both bit primitives are answered at their accepting edge. -/
theorem exec_bitPrimitive {i : Instr} (hi : i.mnemonic = .ctz ∨ i.mnemonic = .cto) (s : State) :
    ∃ r, exec i s = .next (s.respond r .ok) := by
  cases i with
  | ctz x => exact ⟨_, rfl⟩
  | cto x => exact ⟨_, rfl⟩
  | gap v => simp [Instr.mnemonic] at hi
  | op3 v => simp [Instr.mnemonic] at hi

/-- After a stream of bit primitives the block is IDLE again, with its scan registers as they were. -/
theorem runEdges_bitPrimitives {is : List Instr} {s : State}
    (his : ∀ i ∈ is, i.mnemonic = .ctz ∨ i.mnemonic = .cto) (hs : s.fsm = .idle) :
    ∃ t, runEdges (is.map offerInput) s = .next t ∧ t.fsm = .idle ∧ t.cur = s.cur ∧
      t.maxg = s.maxg := by
  induction is generalizing s with
  | nil => exact ⟨s, rfl, hs, rfl, rfl⟩
  | cons i is ih =>
    obtain ⟨hi, his⟩ := List.forall_mem_cons.1 his
    obtain ⟨r, hr⟩ := exec_bitPrimitive hi s
    rw [List.map_cons, runEdges_cons ((clockEdge_offerInput i hs).trans hr)]
    exact ih (s := s.respond r .ok) his rfl

theorem runEdges_singleton (inp : Input) (s : State) : runEdges [inp] s = clockEdge inp s := by
  obtain ⟨t, h⟩ := clockEdge_total inp s
  rw [runEdges_cons h, h, runEdges]

/-- The last command offered is run by exec in the state that the earlier ones left. -/
theorem runEdges_map_offerInput_append {is : List Instr} {s t : State} (i : Instr)
    (h : runEdges (is.map offerInput) s = .next t) (ht : t.fsm = .idle) :
    runEdges ((is ++ [i]).map offerInput) s = exec i t := by
  rw [List.map_append, runEdges_append h, ← clockEdge_offerInput i ht]
  exact runEdges_singleton _ t

/-- Settles O15: the earlier commands, by induction on them, leave the block IDLE, and it answers the
last one at that command's own edge. -/
theorem bitPrimitiveStreamRunsOnePerEdge : Obligations.BitPrimitiveStreamRunsOnePerEdge := by
  intro earlier s hearlier hs x
  obtain ⟨t, hrun, hidle, hcur, hmaxg⟩ := runEdges_bitPrimitives hearlier hs
  exact ⟨⟨_, runEdges_map_offerInput_append (.ctz x) hrun hidle, toNat_ofNat_ctz32 x, rfl, rfl, rfl,
      hcur, hmaxg, rfl⟩,
    ⟨_, runEdges_map_offerInput_append (.cto x) hrun hidle, toNat_ofNat_cto32 x, rfl, rfl, rfl,
      hcur, hmaxg, rfl⟩⟩

end Machine
end Sys2Proof
end

section
/-! PROOF. The binary gaps of a word and what stripping runs does to them (41_binary_gap_scanner.md R92,
R98, R99). -/

namespace Sys2Proof.Machine

/-! ### The list of gaps -/

/-- What a gap is, bit by bit (R92). -/
theorem isGap_iff {n : Word} {i j : Nat} :
    isGap n i j = true ↔ 1 ≤ i ∧ i < j ∧ n.getLsbD (i - 1) = true ∧ n.getLsbD j = true ∧
      ∀ k, i ≤ k → k < j → n.getLsbD k = false := by
  have hrun : (∀ k < j - i, n.getLsbD (i + k) = false) ↔
      ∀ k, i ≤ k → k < j → n.getLsbD k = false := by
    constructor
    · intro h k hik hkj
      simpa [Nat.add_sub_cancel' hik] using h (k - i) (by omega)
    · exact fun h k hk => h (i + k) (by omega) (by omega)
  simp [isGap, and_assoc, hrun]

theorem mem_gaps {n : Word} {p : Nat × Nat} : p ∈ gaps n ↔ isGap n p.1 p.2 = true := by
  constructor
  · intro h
    simp only [gaps, List.mem_flatMap, List.mem_map, List.mem_filter] at h
    obtain ⟨i, -, j, ⟨-, hgap⟩, rfl⟩ := h
    exact hgap
  · intro h
    obtain ⟨-, hlt, -, htop, -⟩ := isGap_iff.1 h
    have hj : p.2 < 32 := BitVec.lt_of_getLsbD htop
    simp only [gaps, List.mem_flatMap, List.mem_map, List.mem_filter, List.mem_range]
    exact ⟨p.1, by omega, p.2, ⟨hj, h⟩, rfl⟩

/-- The order in which `gaps` lists its pairs. -/
abbrev GapBefore : Nat × Nat → Nat × Nat → Prop := Prod.Lex (· < ·) (· < ·)

theorem gaps_pairwise (n : Word) : (gaps n).Pairwise GapBefore := by
  rw [gaps, List.pairwise_flatMap]
  constructor
  · intro i _
    rw [List.pairwise_map]
    exact (List.pairwise_lt_range.filter _).imp fun h => Prod.Lex.right _ h
  · refine List.pairwise_lt_range.imp fun h p hp q hq => ?_
    obtain ⟨_, -, rfl⟩ := List.mem_map.1 hp
    obtain ⟨_, -, rfl⟩ := List.mem_map.1 hq
    exact Prod.Lex.left _ _ h

/-- An ordered list with the gaps of `n` as its members is the list of the gaps. -/
theorem gaps_eq_of_mem_iff {n : Word} {l : List (Nat × Nat)} (hl : l.Pairwise GapBefore)
    (h : ∀ p, isGap n p.1 p.2 = true ↔ p ∈ l) : gaps n = l :=
  (gaps_pairwise n).eq_of_mem_iff hl fun p => mem_gaps.trans (h p)

@[simp] theorem gaps_zero : gaps 0#32 = [] := by decide

/-! ### The gaps of a word and of what stripping its runs leaves -/

/-- The bits that stripping the low zero run and the one run above it shifts out. -/
def strippedBits (v : Word) : Nat := ctz32 v + cto32 (stripZeros v)

theorem stripRuns_eq_shr_strippedBits (v : Word) : stripRuns v = shr v (strippedBits v) :=
  stripRuns_eq_shr v

theorem getLsbD_stripRuns (v : Word) (i : Nat) :
    (stripRuns v).getLsbD i = v.getLsbD (strippedBits v + i) := by
  rw [stripRuns_eq_shr_strippedBits, getLsbD_shr]

theorem ctz32_lt_strippedBits {v : Word} (h : v ≠ 0) : ctz32 v < strippedBits v := by
  have hne : cto32 (stripZeros v) ≠ 0 := by
    rw [Ne, cto32_eq_zero_iff, stripZeros_getLsbD_zero h]
    decide
  unfold strippedBits
  omega

/-- The stripped bits above the low zero run are ones. -/
theorem getLsbD_of_lt_strippedBits {v : Word} {i : Nat} (hlow : ctz32 v ≤ i)
    (hi : i < strippedBits v) : v.getLsbD i = true := by
  have hbit : (stripZeros v).getLsbD (i - ctz32 v) = true :=
    getLsbD_of_lt_cto32 (by unfold strippedBits at hi; omega)
  rwa [stripZeros, getLsbD_shr, Nat.add_sub_cancel' hlow] at hbit

/-- The cursor after a strip has a zero run at its low end (R98). -/
theorem ctz32_stripRuns_pos (v : Word) : 0 < ctz32 (stripRuns v) := by
  rw [Nat.pos_iff_ne_zero, Ne, ctz32_eq_zero_iff, stripRuns_getLsbD_zero]
  decide

/-- No gap begins within the stripped bits. -/
theorem strippedBits_le_of_isGap {v : Word} {i j : Nat} (h : isGap v i j = true) :
    strippedBits v ≤ i := by
  obtain ⟨hi, hij, hone, -, hzero⟩ := isGap_iff.1 h
  by_contra! hlt
  have hlow := ctz32_lt_of_getLsbD hone
  have hbit := getLsbD_of_lt_strippedBits (by omega) hlt
  simp [hzero i le_rfl hij] at hbit

/-- The gap just above the stripped bits is the low zero run of what is left. -/
theorem isGap_strippedBits_iff {v : Word} (hv : v ≠ 0) (hc : stripRuns v ≠ 0) (j : Nat) :
    isGap v (strippedBits v) j = true ↔ j = strippedBits v + ctz32 (stripRuns v) := by
  have hlow := ctz32_lt_strippedBits hv
  have hpos := ctz32_stripRuns_pos v
  have hlt := (ctz32_lt_iff _).2 hc
  constructor
  · intro h
    obtain ⟨-, hj, -, htop, hzero⟩ := isGap_iff.1 h
    have hctz : ctz32 (stripRuns v) = j - strippedBits v := by
      rw [ctz32_eq_iff_of_lt (by have := BitVec.lt_of_getLsbD htop; omega)]
      simp only [getLsbD_stripRuns, Nat.add_sub_cancel' hj.le]
      exact ⟨htop, fun i hi => hzero _ (by omega) (by omega)⟩
    omega
  · rintro rfl
    refine isGap_iff.2 ⟨by omega, by omega, getLsbD_of_lt_strippedBits (by omega) (by omega), ?_, ?_⟩
    · rw [← getLsbD_stripRuns]
      exact getLsbD_ctz32 hc
    · intro k hk hkt
      rw [← Nat.add_sub_cancel' hk, ← getLsbD_stripRuns]
      exact getLsbD_of_lt_ctz32 (by omega)

/-- A gap of what is left is the gap as many places up in the whole. -/
theorem isGap_stripRuns_iff (v : Word) {i : Nat} (hi : 1 ≤ i) (j : Nat) :
    isGap (stripRuns v) i j = true ↔
      isGap v (strippedBits v + i) (strippedBits v + j) = true := by
  simp only [isGap_iff, getLsbD_stripRuns]
  have hbelow : strippedBits v + i - 1 = strippedBits v + (i - 1) := by omega
  constructor
  · rintro ⟨-, hij, hone, htop, hzero⟩
    refine ⟨by omega, by omega, hbelow ▸ hone, htop, fun k hk hkt => ?_⟩
    have hbit := hzero (k - strippedBits v) (by omega) (by omega)
    rwa [Nat.add_sub_cancel' (by omega)] at hbit
  · rintro ⟨-, hij, hone, htop, hzero⟩
    exact ⟨hi, by omega, hbelow ▸ hone, htop, fun k hk hkt => hzero _ (by omega) (by omega)⟩

/-- When stripping leaves nothing there is no gap: its upper one bit would be left. -/
theorem gaps_of_stripRuns_eq_zero {v : Word} (hc : stripRuns v = 0) : gaps v = [] := by
  refine gaps_eq_of_mem_iff .nil fun p => iff_of_false (fun h => ?_) List.not_mem_nil
  have hle := strippedBits_le_of_isGap h
  obtain ⟨-, hij, -, htop, -⟩ := isGap_iff.1 h
  rw [← Nat.add_sub_cancel' (hle.trans hij.le), ← getLsbD_stripRuns, hc] at htop
  simp at htop

/-- The pair `q`, `r` places up. -/
def gapUp (r : Nat) (q : Nat × Nat) : Nat × Nat := (r + q.1, r + q.2)

/-- The gaps of a word: the low zero run of what stripping leaves, then the gaps of what is left (R98). -/
theorem gaps_of_stripRuns_ne_zero {v : Word} (hc : stripRuns v ≠ 0) :
    gaps v = (strippedBits v, strippedBits v + ctz32 (stripRuns v)) ::
      (gaps (stripRuns v)).map (gapUp (strippedBits v)) := by
  have hv : v ≠ 0 := by rintro rfl; exact hc stripRuns_zero
  refine gaps_eq_of_mem_iff (List.pairwise_cons.2 ⟨?_, ?_⟩) ?_
  · intro p hp
    obtain ⟨q, hq, rfl⟩ := List.mem_map.1 hp
    obtain ⟨hq1, -⟩ := isGap_iff.1 (mem_gaps.1 hq)
    exact Prod.Lex.left _ _ (Nat.lt_add_of_pos_right hq1)
  · rw [List.pairwise_map]
    refine (gaps_pairwise _).imp fun {p q} h => ?_
    simpa [GapBefore, gapUp, Prod.lex_def] using h
  · rintro ⟨i, j⟩
    simp only [List.mem_cons, List.mem_map, Prod.mk.injEq, gapUp]
    constructor
    · intro h
      have hle := strippedBits_le_of_isGap h
      rcases Nat.eq_or_lt_of_le hle with rfl | hlt
      · exact .inl ⟨rfl, (isGap_strippedBits_iff hv hc j).1 h⟩
      · obtain ⟨-, hij, -⟩ := isGap_iff.1 h
        refine .inr ⟨(i - strippedBits v, j - strippedBits v), mem_gaps.2 ?_, by omega, by omega⟩
        rw [isGap_stripRuns_iff v (by omega), Nat.add_sub_cancel' hle,
          Nat.add_sub_cancel' (hle.trans hij.le)]
        exact h
    · rintro (⟨rfl, rfl⟩ | ⟨q, hq, rfl, rfl⟩)
      · exact (isGap_strippedBits_iff hv hc _).2 rfl
      · have hgap := mem_gaps.1 hq
        obtain ⟨hq1, -⟩ := isGap_iff.1 hgap
        exact (isGap_stripRuns_iff v hq1 q.2).1 hgap

/-! ### How many gaps there are -/

theorem gapCount_of_stripRuns_eq_zero {v : Word} (hc : stripRuns v = 0) : gapCount v = 0 := by
  rw [gapCount, gaps_of_stripRuns_eq_zero hc, List.length_nil]

theorem gapCount_of_stripRuns_ne_zero {v : Word} (hc : stripRuns v ≠ 0) :
    gapCount v = gapCount (stripRuns v) + 1 := by
  rw [gapCount, gaps_of_stripRuns_ne_zero hc, List.length_cons, List.length_map, gapCount]

/-! ### The cursor of the scan -/

theorem scanCursor_succ_eq_stripRuns (n : Word) (k : Nat) :
    scanCursor n (k + 1) = stripRuns (scanCursor n k) := rfl

/-- The first strip and then `k` more are the scan of what the first leaves. -/
theorem scanCursor_succ (n : Word) (k : Nat) :
    scanCursor n (k + 1) = scanCursor (stripRuns n) k := by
  induction k with
  | zero => rfl
  | succ k ih => rw [scanCursor_succ_eq_stripRuns, ih, scanCursor_succ_eq_stripRuns]

theorem cursorAtGap_of_getElem? {n : Word} {k : Nat} {p : Nat × Nat} (h : (gaps n)[k]? = some p) :
    cursorAtGap n k = shr n p.1 := by
  rw [cursorAtGap, h]

theorem cursorAtGap_of_le {n : Word} {k : Nat} (h : gapCount n ≤ k) : cursorAtGap n k = 0 := by
  rw [cursorAtGap, List.getElem?_eq_none h]

theorem exists_getElem?_gaps {n : Word} {k : Nat} (h : k < gapCount n) :
    ∃ p, (gaps n)[k]? = some p := ⟨_, List.getElem?_eq_getElem h⟩

theorem cursorAtGap_zero (n : Word) : cursorAtGap n 0 = stripRuns n := by
  by_cases hc : stripRuns n = 0
  · rw [cursorAtGap_of_le (gapCount_of_stripRuns_eq_zero hc).le, hc]
  · rw [cursorAtGap_of_getElem? (by rw [gaps_of_stripRuns_ne_zero hc]; rfl),
      stripRuns_eq_shr_strippedBits]

/-- The next gap of the whole is the gap of what is left. -/
theorem cursorAtGap_succ (n : Word) (k : Nat) :
    cursorAtGap n (k + 1) = cursorAtGap (stripRuns n) k := by
  by_cases hc : stripRuns n = 0
  · rw [cursorAtGap_of_le (by simp [gapCount_of_stripRuns_eq_zero hc]), hc,
      cursorAtGap_of_le (by simp [gapCount])]
  · have hcount := gapCount_of_stripRuns_ne_zero hc
    by_cases hk : k < gapCount (stripRuns n)
    · obtain ⟨p, hp⟩ := exists_getElem?_gaps hk
      have hnext : (gaps n)[k + 1]? = some (gapUp (strippedBits n) p) := by
        simp [gaps_of_stripRuns_ne_zero hc, hp]
      rw [cursorAtGap_of_getElem? hnext, cursorAtGap_of_getElem? hp, gapUp, ← shr_shr,
        ← stripRuns_eq_shr_strippedBits]
    · rw [cursorAtGap_of_le (by omega), cursorAtGap_of_le (by omega)]

/-- The scan's cursor is what is left of `n` at its next gap (R98). -/
theorem scanCursor_eq_cursorAtGap (n : Word) (k : Nat) : scanCursor n k = cursorAtGap n k := by
  induction k generalizing n with
  | zero => exact (cursorAtGap_zero n).symm
  | succ k ih => rw [scanCursor_succ, ih, cursorAtGap_succ]

/-- An iteration takes the cursor at a gap to the cursor at the next. -/
theorem stripRuns_cursorAtGap (n : Word) (k : Nat) :
    stripRuns (cursorAtGap n k) = cursorAtGap n (k + 1) := by
  rw [← scanCursor_eq_cursorAtGap, ← scanCursor_eq_cursorAtGap, scanCursor_succ_eq_stripRuns]

/-- The low zero run of the cursor at a gap is that gap (R98). -/
theorem ctz32_cursorAtGap {n : Word} {k : Nat} {p : Nat × Nat} (h : (gaps n)[k]? = some p) :
    ctz32 (cursorAtGap n k) = p.2 - p.1 := by
  obtain ⟨-, hij, -, htop, hzero⟩ := isGap_iff.1 (mem_gaps.1 (List.mem_of_getElem? h))
  have hj := BitVec.lt_of_getLsbD htop
  rw [cursorAtGap_of_getElem? h, ctz32_eq_iff_of_lt (by omega)]
  simp only [getLsbD_shr, Nat.add_sub_cancel' hij.le]
  exact ⟨htop, fun i hi => hzero _ (by omega) (by omega)⟩

theorem cursorAtGap_eq_zero_iff (n : Word) (k : Nat) : cursorAtGap n k = 0 ↔ gapCount n ≤ k := by
  refine ⟨fun h => ?_, cursorAtGap_of_le⟩
  by_contra! hk
  obtain ⟨p, hp⟩ := exists_getElem?_gaps hk
  obtain ⟨-, -, -, htop, -⟩ := isGap_iff.1 (mem_gaps.1 (List.mem_of_getElem? hp))
  have hlen := ctz32_cursorAtGap hp
  rw [h, show (0 : Word) = 0#32 from rfl, ctz32_zero] at hlen
  have hj := BitVec.lt_of_getLsbD htop
  omega

/-- Every cursor has bit 0 clear (R98). -/
theorem cursorAtGap_getLsbD_zero (n : Word) (k : Nat) : (cursorAtGap n k).getLsbD 0 = false := by
  rw [← scanCursor_eq_cursorAtGap]
  cases k with
  | zero => exact stripRuns_getLsbD_zero n
  | succ k => exact stripRuns_getLsbD_zero _

/-! ### The longest of some lengths -/

theorem longestOf_append_singleton (l : List Nat) (a : Nat) :
    longestOf (l ++ [a]) = max (longestOf l) a := by
  simp [longestOf]

theorem longestOf_le_iff (l : List Nat) (m : Nat) : longestOf l ≤ m ↔ ∀ a ∈ l, a ≤ m := by
  induction l using List.reverseRecOn with
  | nil => simp [longestOf]
  | append_singleton l a ih =>
    rw [longestOf_append_singleton, max_le_iff, ih]
    simp only [List.mem_append, List.mem_singleton, or_imp, forall_and, forall_eq]

/-- The longest is among the lengths, unless it is the 0 of none. -/
theorem longestOf_mem {l : List Nat} (h : longestOf l ≠ 0) : longestOf l ∈ l := by
  induction l using List.reverseRecOn with
  | nil => exact absurd rfl h
  | append_singleton l a ih =>
    rw [longestOf_append_singleton] at h ⊢
    rcases max_cases (longestOf l) a with ⟨heq, -⟩ | ⟨heq, -⟩
    · rw [heq] at h ⊢
      exact List.mem_append_left _ (ih h)
    · simp [heq]

theorem mem_gapLengths {n : Word} {m : Nat} :
    m ∈ gapLengths n ↔ ∃ i j, isGap n i j = true ∧ m = j - i := by
  simp only [gapLengths, List.mem_map, mem_gaps, Prod.exists, eq_comm (a := m)]

theorem lbg_le_iff (n : Word) (m : Nat) :
    lbg n ≤ m ↔ ∀ i j, isGap n i j = true → j - i ≤ m := by
  rw [lbg, longestOf_le_iff]
  simp only [mem_gapLengths]
  exact ⟨fun h i j hgap => h _ ⟨i, j, hgap, rfl⟩,
    by rintro h _ ⟨i, j, hgap, rfl⟩; exact h i j hgap⟩

theorem exists_isGap_of_lbg_ne_zero {n : Word} (h : lbg n ≠ 0) :
    ∃ i j, isGap n i j = true ∧ lbg n = j - i := mem_gapLengths.1 (longestOf_mem h)

/-- One more gap measured is one more zero run compared (R98). -/
theorem longestOf_take_succ {n : Word} {k : Nat} (h : k < gapCount n) :
    longestOf ((gapLengths n).take (k + 1)) =
      max (longestOf ((gapLengths n).take k)) (ctz32 (cursorAtGap n k)) := by
  obtain ⟨p, hp⟩ := exists_getElem?_gaps h
  have hlen : (gapLengths n)[k]? = some (ctz32 (cursorAtGap n k)) := by
    rw [gapLengths, List.getElem?_map, hp, ctz32_cursorAtGap hp, Option.map_some]
  rw [List.take_add_one, hlen, Option.toList_some, longestOf_append_singleton]

/-- After as many iterations as gaps, all gaps are measured. -/
theorem longestOf_take_gapCount (n : Word) :
    longestOf ((gapLengths n).take (gapCount n)) = lbg n := by
  rw [lbg, List.take_of_length_le (by simp [gapLengths, gapCount])]

theorem longestOf_take_le_lbg (n : Word) (k : Nat) :
    longestOf ((gapLengths n).take k) ≤ lbg n :=
  (longestOf_le_iff _ _).2 fun _ ha =>
    (longestOf_le_iff (gapLengths n) _).1 le_rfl _ (List.mem_of_mem_take ha)

end Sys2Proof.Machine
end

section
/-! PROOF. The edges of a scan and the answer they lead to (41_binary_gap_scanner.md R95 to R98, R100,
R106). -/

namespace Sys2Proof.Machine

/-! ### One scan, edge by edge -/

theorem clockEdge_of_iterating {inp : Input} {s : State} (hr : inp.rst = false) (hs : s.fsm = .scan)
    (hc : s.cur ≠ 0) : clockEdge inp s = .next (iterateGap s) := by
  rw [clockEdge_of_scan hr hs, scanEdge_of_ne hc]

theorem clockEdge_of_completing {inp : Input} {s : State} (hr : inp.rst = false) (hs : s.fsm = .scan)
    (hc : s.cur = 0) : clockEdge inp s = .next (completeGap s) := by
  rw [clockEdge_of_scan hr hs, scanEdge_of_zero hc]

theorem clockEdge_gap_of_valid {n : Word} {inp : Input} {s : State} (hn : valid n = true)
    (ha : accepts inp s = true) (hd : decodeWord (sampledWord inp) = .gap n) :
    clockEdge inp s = .next (s.startScan (stripRuns n)) := by
  rw [clockEdge_of_accepts ha, hd, exec_gap_of_valid s hn]

theorem clockEdge_gap_of_invalid {n : Word} {inp : Input} {s : State} (hn : valid n = false)
    (ha : accepts inp s = true) (hd : decodeWord (sampledWord inp) = .gap n) :
    clockEdge inp s = .next (s.respondError .invalidArgument) := by
  rw [clockEdge_of_accepts ha, hd]
  exact execGap_of_invalid s hn

/-! ### The scan of an operand -/

/-- The accepting edge starts the scan of its operand. -/
theorem State.scansOperand_startScan {n : Word} (hn : valid n = true) (s : State) :
    (s.startScan (stripRuns n)).ScansOperand n 0 := by
  refine ⟨hn, Nat.zero_le _, rfl, rfl, ?_, rfl⟩
  rw [startScan_cur, cursorAtGap_zero]

theorem State.ScansOperand.cur_eq_zero_iff {n : Word} {k : Nat} {s : State}
    (h : s.ScansOperand n k) : s.cur = 0 ↔ k = gapCount n := by
  obtain ⟨-, hk, -, -, hcur, -⟩ := h
  rw [hcur, cursorAtGap_eq_zero_iff]
  omega

/-- An iteration is the scan's move from one gap to the next. -/
theorem State.ScansOperand.iterateGap {n : Word} {k : Nat} {s : State} (h : s.ScansOperand n k)
    (hk : k < gapCount n) : (iterateGap s).ScansOperand n (k + 1) := by
  obtain ⟨hn, -, hfsm, hdone, hcur, hmaxg⟩ := h
  refine ⟨hn, hk, hfsm, hdone, ?_, ?_⟩
  · rw [iterateGap_cur, hcur, stripRuns_cursorAtGap]
  · rw [iterateGap_maxg, maxRun_toNat _ (ctz32_le _), hmaxg, hcur, longestOf_take_succ hk]

/-- While a gap is left, the next edge without reset measures it. -/
theorem State.ScansOperand.clockEdge_iterates {n : Word} {k : Nat} {s : State} {inp : Input}
    (h : s.ScansOperand n k) (hk : k < gapCount n) (hr : inp.rst = false) :
    clockEdge inp s = .next (Machine.iterateGap s) := by
  have hc := h.cur_eq_zero_iff
  obtain ⟨-, -, hfsm, -⟩ := h
  exact clockEdge_of_iterating hr hfsm (by rw [Ne, hc]; omega)

/-- With no gap left, the next edge without reset answers. -/
theorem State.ScansOperand.clockEdge_completes {n : Word} {s : State} {inp : Input}
    (h : s.ScansOperand n (gapCount n)) (hr : inp.rst = false) :
    clockEdge inp s = .next (completeGap s) := by
  have hc := h.cur_eq_zero_iff
  obtain ⟨-, -, hfsm, -⟩ := h
  exact clockEdge_of_completing hr hfsm (hc.2 rfl)

theorem noReset_cons {inp : Input} {ins : List Input} :
    noReset (inp :: ins) = true ↔ inp.rst = false ∧ noReset ins = true := by
  simp [noReset]

/-- As many edges as there are gaps left, or fewer, go on with the scan and touch no response
register. -/
theorem State.ScansOperand.runEdges {n : Word} {k : Nat} {s : State} {ins : List Input}
    (h : s.ScansOperand n k) (hins : noReset ins = true) (hk : k + ins.length ≤ gapCount n) :
    ∃ t, runEdges ins s = .next t ∧ t.ScansOperand n (k + ins.length) ∧
      t.result = s.result ∧ t.status = s.status ∧ t.host = s.host := by
  induction ins generalizing k s with
  | nil => exact ⟨s, rfl, h, rfl, rfl, rfl⟩
  | cons inp ins ih =>
    obtain ⟨hr, hins⟩ := noReset_cons.1 hins
    rw [List.length_cons] at hk
    have hlt : k < gapCount n := by omega
    obtain ⟨t, hrun, hscan, hframe⟩ := ih (h.iterateGap hlt) hins (by omega)
    refine ⟨t, (runEdges_cons (h.clockEdge_iterates hlt hr)).trans hrun, ?_, hframe⟩
    rwa [List.length_cons, show k + (ins.length + 1) = k + 1 + ins.length by omega]

/-- From the accept of a valid operand on, the block scans it (R98). -/
theorem runEdges_gap_scans {n : Word} {inp : Input} {later : List Input} {s : State}
    (hn : valid n = true) (ha : accepts inp s = true) (hd : decodeWord (sampledWord inp) = .gap n)
    (hl : noReset later = true) (hk : later.length ≤ gapCount n) :
    ∃ t, runEdges (inp :: later) s = .next t ∧ t.ScansOperand n later.length ∧
      t.result = s.result ∧ t.status = s.status ∧ t.host = s.host := by
  rw [runEdges_cons (clockEdge_gap_of_valid hn ha hd)]
  simpa using (State.scansOperand_startScan hn s).runEdges hl (by omega)

/-- One edge after the last iteration comes the completing edge (R97). -/
theorem runEdges_gap_completes {n : Word} {inp : Input} {later : List Input} {s : State}
    (hn : valid n = true) (ha : accepts inp s = true) (hd : decodeWord (sampledWord inp) = .gap n)
    (hl : noReset later = true) (hk : later.length = gapCount n + 1) :
    ∃ t, runEdges (inp :: later) s = .next (completeGap t) ∧ t.ScansOperand n (gapCount n) := by
  obtain ⟨scanned, last, rfl⟩ : ∃ scanned last, later = scanned ++ [last] :=
    ⟨_, _, (List.dropLast_append_getLast (by rintro rfl; simp at hk)).symm⟩
  have hlen : scanned.length = gapCount n := by simpa using hk
  obtain ⟨hscanned, hr⟩ : noReset scanned = true ∧ last.rst = false := by
    simpa [noReset] using hl
  obtain ⟨t, hrun, hscan, -⟩ := runEdges_gap_scans hn ha hd hscanned hlen.le
  rw [hlen] at hscan
  refine ⟨t, ?_, hscan⟩
  rw [← List.cons_append, runEdges_append hrun, runEdges_singleton, hscan.clockEdge_completes hr]

/-- The scan registers are functions of the operand and the iteration (R106). -/
theorem State.ScansOperand.scanRegisters_eq {n : Word} {k : Nat} {s t : State}
    (hs : s.ScansOperand n k) (ht : t.ScansOperand n k) : s.cur = t.cur ∧ s.maxg = t.maxg := by
  obtain ⟨-, -, -, -, hcur, hmaxg⟩ := hs
  obtain ⟨-, -, -, -, hcur', hmaxg'⟩ := ht
  exact ⟨hcur.trans hcur'.symm, BitVec.eq_of_toNat_eq (hmaxg.trans hmaxg'.symm)⟩

theorem State.ScansOperand.maxg_toNat_eq_lbg {n : Word} {s : State}
    (h : s.ScansOperand n (gapCount n)) : s.maxg.toNat = lbg n := by
  obtain ⟨-, -, -, -, -, hmaxg⟩ := h
  rw [hmaxg, longestOf_take_gapCount]

/-! ### The response -/

theorem State.response_of_not_done {s : State} (h : s.done = false) : s.response = .pending := by
  simp [State.response, h]

@[simp] theorem completeGap_response (s : State) : (completeGap s).response = .answer s.maxg := rfl

/-- The test of R95: not zero, and not negative. -/
theorem valid_iff_sign (v : Word) : valid v = true ↔ v ≠ 0 ∧ v.getLsbD 31 = false := by
  simp [valid]

/-! ### The obligations -/

/-- Settles O21: the edge is `iterateGap`, whose strip goes through the value with its low zero run
shifted out. -/
theorem scanIterationMeasuresAndStripsRun : Obligations.ScanIterationMeasuresAndStripsRun := by
  intro inp s hr hs hc
  exact ⟨_, _, clockEdge_of_iterating hr hs hc, maxRun_toNat _ (ctz32_le _), rfl,
    stripZeros_getLsbD_zero hc, rfl, hs, rfl, rfl, rfl, rfl⟩

/-- Settles O22: the edge is `completeGap`, and FSM = SCAN before it accepts nothing. -/
theorem scanCompletionAnswersMaxg : Obligations.ScanCompletionAnswersMaxg := by
  intro inp s hr hs hc
  exact ⟨by simp [accepts, hs], _, clockEdge_of_completing hr hs hc, rfl, rfl, rfl, rfl, hc, rfl, rfl,
    rfl⟩

/-- Settles O29: bit 31 is the sign, and clear exactly below 2^31. -/
theorem validOperandsArePositive : Obligations.ValidOperandsArePositive := by
  intro v
  have hv := v.isLt
  refine ⟨?_, valid_iff_sign v, by rw [valid_iff_toNat]; omega⟩
  rw [valid_iff_toNat, sval, getLsbD_31_eq_decide]
  by_cases hneg : 2 ^ 31 ≤ v.toNat
  · simp only [hneg, decide_true, if_true]
    omega
  · simp only [hneg, decide_false, Bool.false_eq_true, if_false]
    omega

/-- Settles O40: the edges after the accept scan the operand, and the cursor at a gap has that gap at
its low end. -/
theorem scanConsumesGapsInOrder : Obligations.ScanConsumesGapsInOrder := by
  intro n inp later s hn ha hd hl hk
  obtain ⟨t, hrun, hscan, hresult, hstatus, hhost⟩ := runEdges_gap_scans hn ha hd hl hk
  have hzero := hscan.cur_eq_zero_iff
  obtain ⟨-, -, hfsm, hdone, hcur, hmaxg⟩ := hscan
  have hlow : t.cur.getLsbD 0 = false := hcur ▸ cursorAtGap_getLsbD_zero n _
  refine ⟨t, hrun, hfsm, hdone, hresult, hstatus, hhost, hmaxg, ?_, hzero.2, ?_⟩
  · intro p hp
    have hleft : later.length < gapCount n := (List.getElem?_eq_some_iff.1 hp).1
    exact ⟨hcur.trans (cursorAtGap_of_getElem? hp), by rw [Ne, hzero]; omega,
      hcur ▸ ctz32_cursorAtGap hp⟩
  · intro hne
    refine ⟨hlow, ctz32 t.cur, ?_, getLsbD_ctz32 hne⟩
    rw [Nat.pos_iff_ne_zero, Ne, ctz32_eq_zero_iff, hlow]
    decide

/-- Settles O49: a scan's registers are functions of the operand and the iteration, and so is the
response that ends it. -/
theorem gapResponseDependsOnOperandOnly : Obligations.GapResponseDependsOnOperandOnly := by
  intro n inp inp' later later' s s' ha ha' hd hd' hl hl' hlen hvalid hinvalid
  by_cases hn : valid n = true
  · rcases Nat.lt_or_eq_of_le (hvalid hn) with hk | hk
    · obtain ⟨t, hrun, hscan, -⟩ := runEdges_gap_scans hn ha hd hl (by omega)
      obtain ⟨t', hrun', hscan', -⟩ := runEdges_gap_scans hn ha' hd' hl' (by omega)
      have hregs := hscan.scanRegisters_eq (hlen ▸ hscan')
      obtain ⟨-, -, hfsm, hdone, -⟩ := hscan
      obtain ⟨-, -, hfsm', hdone', -⟩ := hscan'
      refine ⟨t, t', hrun, hrun', hfsm.trans hfsm'.symm, hdone.trans hdone'.symm, ?_, fun _ => hregs⟩
      rw [State.response_of_not_done hdone, State.response_of_not_done hdone']
    · obtain ⟨t, hrun, hscan⟩ := runEdges_gap_completes hn ha hd hl hk
      obtain ⟨t', hrun', hscan'⟩ := runEdges_gap_completes hn ha' hd' hl' (hlen ▸ hk)
      have hregs := hscan.scanRegisters_eq hscan'
      exact ⟨_, _, hrun, hrun', rfl, rfl, by simp [hregs.2], fun _ => hregs⟩
  · rw [Bool.not_eq_true] at hn
    obtain rfl := hinvalid hn
    obtain rfl := List.length_eq_zero_iff.1 hlen.symm
    refine ⟨s.respondError .invalidArgument, s'.respondError .invalidArgument, ?_, ?_, rfl, rfl, rfl,
      by simp [hn]⟩
    · rw [runEdges_singleton, clockEdge_gap_of_invalid hn ha hd]
    · rw [runEdges_singleton, clockEdge_gap_of_invalid hn ha' hd']

end Sys2Proof.Machine
end

section
/-! PROOF. Bounds on what a scan measures, shifts out and iterates (41_binary_gap_scanner.md R100 to R102,
R104, R105). -/

namespace Sys2Proof.Machine

/-! ### What the runs of a word amount to -/

theorem toNat_eq_two_pow_mul_stripZeros (v : Word) :
    v.toNat = 2 ^ ctz32 v * (stripZeros v).toNat := by
  have hlow := (toNat_mod_two_pow_eq_zero_iff v (ctz32_le v)).2 le_rfl
  rw [stripZeros, toNat_shr, Nat.mul_div_cancel' (Nat.dvd_of_mod_eq_zero hlow)]

theorem toNat_mod_two_pow_cto32 (v : Word) : v.toNat % 2 ^ cto32 v = 2 ^ cto32 v - 1 := by
  refine Nat.eq_of_testBit_eq fun i => ?_
  rw [Nat.testBit_mod_two_pow, Nat.testBit_two_pow_sub_one]
  by_cases hi : i < cto32 v
  · rw [← BitVec.getLsbD, getLsbD_of_lt_cto32 hi, Bool.and_true]
  · rw [decide_eq_false hi, Bool.false_and]

theorem toNat_succ_eq_two_pow_mul_stripOnes (v : Word) :
    v.toNat + 1 = 2 ^ cto32 v * ((stripOnes v).toNat + 1) := by
  have hdiv := Nat.div_add_mod v.toNat (2 ^ cto32 v)
  have hpos := Nat.two_pow_pos (cto32 v)
  rw [toNat_mod_two_pow_cto32] at hdiv
  rw [stripOnes, toNat_shr, Nat.mul_succ]
  omega

/-- A word is its low zero run, the one run above it and what stripping both leaves. -/
theorem toNat_add_two_pow_ctz32 (v : Word) :
    v.toNat + 2 ^ ctz32 v = 2 ^ strippedBits v * ((stripRuns v).toNat + 1) := by
  calc v.toNat + 2 ^ ctz32 v
      = 2 ^ ctz32 v * ((stripZeros v).toNat + 1) := by
        rw [Nat.mul_succ, ← toNat_eq_two_pow_mul_stripZeros]
    _ = 2 ^ strippedBits v * ((stripRuns v).toNat + 1) := by
        rw [toNat_succ_eq_two_pow_mul_stripOnes, ← Nat.mul_assoc, ← Nat.pow_add]
        rfl

theorem toNat_add_two_pow_ctz32_of_stripRuns_eq_zero {v : Word} (hc : stripRuns v = 0) :
    v.toNat + 2 ^ ctz32 v = 2 ^ strippedBits v := by
  rw [toNat_add_two_pow_ctz32, hc]
  exact Nat.mul_one _

theorem two_pow_ctz32_le {v : Word} (h : v ≠ 0) : 2 ^ ctz32 v ≤ v.toNat :=
  Nat.ge_two_pow_of_testBit (getLsbD_ctz32 h)

theorem two_pow_strippedBits_mul_stripRuns_le (v : Word) :
    2 ^ strippedBits v * (stripRuns v).toNat ≤ v.toNat := by
  rw [stripRuns_eq_shr_strippedBits, toNat_shr]
  exact Nat.mul_div_le _ _

/-! ### Shift amounts -/

theorem stripZeros_toNat_le (v : Word) : (stripZeros v).toNat ≤ v.toNat := by
  rw [stripZeros, toNat_shr]
  exact Nat.div_le_self _ _

theorem stripRuns_toNat_le_self (v : Word) : (stripRuns v).toNat ≤ v.toNat := by
  rw [stripRuns_eq_shr, toNat_shr]
  exact Nat.div_le_self _ _

/-- `k` low ones are a value of at least `2^k - 1`. -/
theorem two_pow_cto32_le (v : Word) : 2 ^ cto32 v ≤ v.toNat + 1 := by
  rw [toNat_succ_eq_two_pow_mul_stripOnes]
  exact Nat.le_mul_of_pos_right _ (Nat.succ_pos _)

theorem cto32_le_of_toNat_lt {v : Word} {k : Nat} (h : v.toNat < 2 ^ k) : cto32 v ≤ k :=
  (Nat.pow_le_pow_iff_right Nat.one_lt_two).1 ((two_pow_cto32_le v).trans h)

/-- A value with its low zeros stripped that is all ones up to the width's bound had no low zeros. -/
theorem toNat_eq_of_cto32_stripZeros_eq {n : Word} {k : Nat} (hn : n.toNat < 2 ^ k)
    (h : cto32 (stripZeros n) = k) : n.toNat = 2 ^ k - 1 := by
  have hones := two_pow_cto32_le (stripZeros n)
  have hle := stripZeros_toNat_le n
  rw [h] at hones
  omega

/-- Both amounts shifted out of a nonzero cursor below `2^k`. -/
theorem shiftAmounts_le_of_toNat_lt {v : Word} {k : Nat} (hv : v ≠ 0) (hk : v.toNat < 2 ^ k) :
    ctz32 v < k ∧ cto32 (stripZeros v) ≤ k :=
  ⟨ctz32_lt_of_toNat_lt hv hk, cto32_le_of_toNat_lt ((stripZeros_toNat_le v).trans_lt hk)⟩

theorem scanCursor_toNat_le (n : Word) (k : Nat) : (scanCursor n k).toNat ≤ (stripRuns n).toNat := by
  induction k with
  | zero => exact le_rfl
  | succ k ih => exact (stripRuns_toNat_le_self _).trans ih

/-- A nonzero operand's cursors are below `2^31`. -/
theorem scanCursor_toNat_lt_of_ne_zero {n : Word} (hn : n ≠ 0) (k : Nat) :
    (scanCursor n k).toNat < 2 ^ 31 := by
  have hle := scanCursor_toNat_le n k
  have hhalf := stripRuns_toNat_le hn
  have := n.isLt
  omega

/-- A valid operand's cursors are below `2^30` (R101). -/
theorem scanCursor_toNat_lt_of_valid {n : Word} (hn : valid n = true) (k : Nat) :
    (scanCursor n k).toNat < 2 ^ 30 :=
  (scanCursor_toNat_le n k).trans_lt (stripRuns_lt_of_valid hn)

/-! ### The number of gaps -/

/-- Induction along the strips of a nonzero word: the words that one strip makes 0, and those that it
leaves a cursor of. -/
theorem strip_induction {P : (v : Word) → v ≠ 0 → Prop}
    (last : ∀ (v : Word) (hv : v ≠ 0), stripRuns v = 0 → P v hv)
    (more : ∀ (v : Word) (hv : v ≠ 0) (hc : stripRuns v ≠ 0), P (stripRuns v) hc → P v hv)
    (v : Word) (hv : v ≠ 0) : P v hv := by
  induction hk : gapCount v generalizing v with
  | zero =>
    refine last v hv ?_
    by_contra hc
    rw [gapCount_of_stripRuns_ne_zero hc] at hk
    omega
  | succ k ih =>
    have hc : stripRuns v ≠ 0 := fun hc => by
      rw [gapCount_of_stripRuns_eq_zero hc] at hk
      omega
    rw [gapCount_of_stripRuns_ne_zero hc] at hk
    exact more v hv hc (ih _ hc (Nat.succ.inj hk))

/-- Each gap takes two bits at least, a zero and the one below it, and the top one bit is above all of
them. -/
theorem two_pow_gapCount_le {v : Word} (hv : v ≠ 0) :
    2 ^ (2 * gapCount v + ctz32 v) ≤ v.toNat := by
  induction v, hv using strip_induction with
  | last v hv hc =>
    simpa [gapCount_of_stripRuns_eq_zero hc] using two_pow_ctz32_le hv
  | more v hv hc ih =>
    have hpos := ctz32_stripRuns_pos v
    have hlow := ctz32_lt_strippedBits hv
    calc 2 ^ (2 * gapCount v + ctz32 v)
        ≤ 2 ^ (strippedBits v + (2 * gapCount (stripRuns v) + ctz32 (stripRuns v))) := by
          rw [gapCount_of_stripRuns_ne_zero hc]
          exact Nat.pow_le_pow_right Nat.two_pos (by omega)
      _ ≤ 2 ^ strippedBits v * (stripRuns v).toNat := by
          rw [Nat.pow_add]
          exact Nat.mul_le_mul_left _ ih
      _ ≤ v.toNat := two_pow_strippedBits_mul_stripRuns_le v

/-- A word of no more bits than its gaps take is `…0101` above its low zeros. -/
theorem alternates_of_toNat_lt {v : Word} (hv : v ≠ 0)
    (hlt : v.toNat < 2 ^ (2 * gapCount v + ctz32 v + 1)) :
    3 * v.toNat + 2 ^ ctz32 v = 2 ^ (2 * gapCount v + ctz32 v + 2) := by
  induction v, hv using strip_induction with
  | last v hv hc =>
    have hsum := toNat_add_two_pow_ctz32_of_stripRuns_eq_zero hc
    have hlow := ctz32_lt_strippedBits hv
    rw [gapCount_of_stripRuns_eq_zero hc, Nat.mul_zero, Nat.zero_add, Nat.pow_succ] at hlt
    have hbits : strippedBits v < ctz32 v + 2 := by
      refine (Nat.pow_lt_pow_iff_right Nat.one_lt_two).1 ?_
      rw [Nat.pow_add]
      omega
    rw [show strippedBits v = ctz32 v + 1 by omega, Nat.pow_succ] at hsum
    rw [gapCount_of_stripRuns_eq_zero hc, Nat.mul_zero, Nat.zero_add, Nat.pow_add]
    omega
  | more v hv hc ih =>
    have hsum := toNat_add_two_pow_ctz32 v
    have hpos := ctz32_stripRuns_pos v
    have hlow := ctz32_lt_strippedBits hv
    have hcount := two_pow_gapCount_le hc
    have hmul := (two_pow_strippedBits_mul_stripRuns_le v).trans_lt hlt
    rw [gapCount_of_stripRuns_ne_zero hc] at hmul ⊢
    have hbits : strippedBits v + (2 * gapCount (stripRuns v) + ctz32 (stripRuns v)) <
        2 * (gapCount (stripRuns v) + 1) + ctz32 v + 1 := by
      refine (Nat.pow_lt_pow_iff_right Nat.one_lt_two).1 (lt_of_le_of_lt ?_ hmul)
      rw [Nat.pow_add]
      exact Nat.mul_le_mul_left _ hcount
    have hstrip : strippedBits v = ctz32 v + 1 := by omega
    have hctz : ctz32 (stripRuns v) = 1 := by omega
    rw [hctz] at ih
    have hrest := ih (Nat.lt_of_mul_lt_mul_left (a := 2 ^ strippedBits v) (by
      rw [← Nat.pow_add]
      refine hmul.trans_eq (congrArg (2 ^ ·) ?_)
      omega))
    rw [hstrip, Nat.pow_succ] at hsum
    calc 3 * v.toNat + 2 ^ ctz32 v
        = 2 ^ (ctz32 v + 1) * (3 * (stripRuns v).toNat + 2 ^ 1) := by
          rw [Nat.pow_succ]
          linarith
      _ = 2 ^ (2 * (gapCount (stripRuns v) + 1) + ctz32 v + 2) := by
          rw [hrest, ← Nat.pow_add]
          refine congrArg (2 ^ ·) ?_
          omega

theorem gapCount_le_of_valid {n : Word} (hn : valid n = true) : gapCount n ≤ 15 := by
  have hlow := two_pow_gapCount_le (valid_ne_zero hn)
  have hlt := (Nat.pow_lt_pow_iff_right Nat.one_lt_two).1 (hlow.trans_lt ((valid_iff_toNat n).1 hn).2)
  omega

theorem gapCount_eq_fifteen_iff {n : Word} (hn : valid n = true) :
    gapCount n = 15 ↔ n = 0x5555_5555#32 := by
  constructor
  · intro h
    have hne := valid_ne_zero hn
    have htop := ((valid_iff_toNat n).1 hn).2
    have hlow := two_pow_gapCount_le hne
    rw [h] at hlow
    have hexp := (Nat.pow_lt_pow_iff_right Nat.one_lt_two).1 (hlow.trans_lt htop)
    have hodd : ctz32 n = 0 := by omega
    have halt := alternates_of_toNat_lt hne (by rw [h, hodd]; exact htop)
    rw [h, hodd] at halt
    refine BitVec.eq_of_toNat_eq ?_
    rw [BitVec.toNat_ofNat]
    omega
  · rintro rfl
    decide

/-! ### The longest gap -/

/-- A gap of a valid operand lies within bits 29 to 1 (R101). -/
theorem isGap_le_of_valid {n : Word} {i j : Nat} (hn : valid n = true) (h : isGap n i j = true) :
    1 ≤ i ∧ j ≤ 30 := by
  obtain ⟨hi, -, -, htop, -⟩ := isGap_iff.1 h
  have hlow := Nat.ge_two_pow_of_testBit htop
  have hj := (Nat.pow_lt_pow_iff_right Nat.one_lt_two).1
    (hlow.trans_lt ((valid_iff_toNat n).1 hn).2)
  exact ⟨hi, by omega⟩

theorem lbg_le_of_valid {n : Word} (hn : valid n = true) : lbg n ≤ 29 := by
  rw [lbg_le_iff]
  intro i j h
  have := isGap_le_of_valid hn h
  omega

/-- Bits 29 to 1 clear between two ones, and bit 31 clear. -/
theorem eq_of_isGap_one_thirty {n : Word} (hn : valid n = true) (h : isGap n 1 30 = true) :
    n = 0x4000_0001#32 := by
  obtain ⟨-, -, hone, htop, hzero⟩ := isGap_iff.1 h
  obtain ⟨-, hsign⟩ := (valid_iff_sign n).1 hn
  refine BitVec.eq_of_getLsbD_eq fun k hk => ?_
  have hbits : ∀ k < 32, (0x4000_0001#32).getLsbD k = decide (k = 0 ∨ k = 30) := by decide
  rw [hbits k hk]
  have hcases : k = 0 ∨ 1 ≤ k ∧ k < 30 ∨ k = 30 ∨ k = 31 := by omega
  rcases hcases with rfl | ⟨h1, h30⟩ | rfl | rfl
  · exact hone
  · rw [hzero k h1 h30, decide_eq_false (by omega)]
  · exact htop
  · exact hsign

theorem lbg_eq_twentyNine_iff {n : Word} (hn : valid n = true) :
    lbg n = 29 ↔ n = 0x4000_0001#32 := by
  constructor
  · intro h
    obtain ⟨i, j, hgap, hlen⟩ := exists_isGap_of_lbg_ne_zero (by rw [h]; decide)
    obtain ⟨hi, hj⟩ := isGap_le_of_valid hn hgap
    obtain ⟨rfl, rfl⟩ : i = 1 ∧ j = 30 := by omega
    exact eq_of_isGap_one_thirty hn hgap
  · rintro rfl
    have hgap : isGap 0x4000_0001#32 1 30 = true := by decide
    exact Nat.le_antisymm (lbg_le_of_valid hn) ((lbg_le_iff _ _).1 le_rfl 1 30 hgap)

/-! ### Operands without a gap -/

theorem lbg_eq_zero_iff (n : Word) : lbg n = 0 ↔ ∀ i j, isGap n i j = false := by
  rw [← Nat.le_zero, lbg_le_iff]
  refine forall₂_congr fun i j => ?_
  rw [← Bool.not_eq_true]
  constructor
  · intro h hgap
    obtain ⟨-, hij, -⟩ := isGap_iff.1 hgap
    have := h hgap
    omega
  · exact fun h hgap => absurd hgap h

/-- `a` ones above `b` zeros. -/
def onesThenZeros (a b : Nat) : Word := BitVec.ofNat 32 ((2 ^ a - 1) * 2 ^ b)

theorem onesThenZeros_toNat {a b : Nat} (h : a + b ≤ 31) :
    (onesThenZeros a b).toNat = (2 ^ a - 1) * 2 ^ b := by
  rw [onesThenZeros, BitVec.toNat_ofNat, Nat.mod_eq_of_lt]
  calc (2 ^ a - 1) * 2 ^ b < 2 ^ a * 2 ^ b :=
        Nat.mul_lt_mul_of_pos_right (Nat.sub_lt (Nat.two_pow_pos a) Nat.one_pos) (Nat.two_pow_pos b)
    _ ≤ 2 ^ 32 := by
        rw [← Nat.pow_add]
        exact Nat.pow_le_pow_right Nat.two_pos (by omega)

theorem getLsbD_onesThenZeros {a b : Nat} (h : a + b ≤ 31) (i : Nat) :
    (onesThenZeros a b).getLsbD i = decide (b ≤ i ∧ i < a + b) := by
  rw [BitVec.getLsbD, onesThenZeros_toNat h, Nat.testBit_mul_two_pow, Nat.testBit_two_pow_sub_one,
    ← Bool.decide_and, decide_eq_decide]
  omega

theorem onesThenZeros_inj {a b a' b' : Nat} (ha : 1 ≤ a) (ha' : 1 ≤ a') (h : a + b ≤ 31)
    (h' : a' + b' ≤ 31) (heq : onesThenZeros a b = onesThenZeros a' b') : a = a' ∧ b = b' := by
  have hbit : ∀ i, (b ≤ i ∧ i < a + b) ↔ b' ≤ i ∧ i < a' + b' := fun i => by
    rw [← decide_eq_decide, ← getLsbD_onesThenZeros h, ← getLsbD_onesThenZeros h', heq]
  have hlow := hbit b
  have hlow' := hbit b'
  have hhigh := hbit (a + b - 1)
  have hhigh' := hbit (a' + b' - 1)
  omega

theorem valid_onesThenZeros {a b : Nat} (ha : 1 ≤ a) (h : a + b ≤ 31) :
    valid (onesThenZeros a b) = true := by
  have hone : (onesThenZeros a b).getLsbD b = true := by
    rw [getLsbD_onesThenZeros h]
    exact decide_eq_true ⟨le_rfl, by omega⟩
  have hsign : (onesThenZeros a b).getLsbD 31 = false := by
    rw [getLsbD_onesThenZeros h]
    exact decide_eq_false (by omega)
  exact (valid_iff_sign _).2 ⟨fun hz => by simp [hz] at hone, hsign⟩

/-- One run of ones has no zeros between ones. -/
theorem lbg_onesThenZeros {a b : Nat} (h : a + b ≤ 31) : lbg (onesThenZeros a b) = 0 := by
  rw [lbg_eq_zero_iff]
  intro i j
  by_contra hgap
  obtain ⟨hi, hij, hone, htop, hzero⟩ := isGap_iff.1 (Bool.of_not_eq_false hgap)
  have hbit := hzero i le_rfl hij
  simp only [getLsbD_onesThenZeros h, decide_eq_true_eq, decide_eq_false_iff_not] at hone htop hbit
  omega

/-- Without a gap nothing is left when the runs are stripped, so the word was those runs. -/
theorem exists_onesThenZeros_of_lbg_eq_zero {n : Word} (hn : valid n = true) (h : lbg n = 0) :
    ∃ a b, 1 ≤ a ∧ a + b ≤ 31 ∧ n = onesThenZeros a b := by
  have hne := valid_ne_zero hn
  have hlow := ctz32_lt_strippedBits hne
  have hc : stripRuns n = 0 := by
    by_contra hc
    have hgap := (isGap_strippedBits_iff hne hc _).2 rfl
    simp [(lbg_eq_zero_iff n).1 h] at hgap
  have hsum := toNat_add_two_pow_ctz32_of_stripRuns_eq_zero hc
  have htop : n.getLsbD (strippedBits n - 1) = true := getLsbD_of_lt_strippedBits (by omega) (by omega)
  have hbits := (Nat.pow_lt_pow_iff_right Nat.one_lt_two).1
    ((Nat.ge_two_pow_of_testBit htop).trans_lt ((valid_iff_toNat n).1 hn).2)
  refine ⟨strippedBits n - ctz32 n, ctz32 n, by omega, by omega, BitVec.eq_of_toNat_eq ?_⟩
  rw [onesThenZeros_toNat (by omega), Nat.sub_one_mul, ← Nat.pow_add, Nat.sub_add_cancel hlow.le]
  omega

theorem lbg_eq_zero_iff_onesThenZeros {n : Word} (hn : valid n = true) :
    lbg n = 0 ↔ ∃ a b, 1 ≤ a ∧ a + b ≤ 31 ∧ n = onesThenZeros a b :=
  ⟨exists_onesThenZeros_of_lbg_eq_zero hn, by rintro ⟨a, b, -, h, rfl⟩; exact lbg_onesThenZeros h⟩

/-- The number of zeros and the number of ones above them, for each valid operand without a gap. -/
def gaplessShapes : List ((_ : Nat) × Nat) :=
  (List.range 31).sigma fun b => (List.range (31 - b)).map (· + 1)

theorem mem_gaplessShapes {p : (_ : Nat) × Nat} :
    p ∈ gaplessShapes ↔ 1 ≤ p.2 ∧ p.2 + p.1 ≤ 31 := by
  obtain ⟨b, a⟩ := p
  simp only [gaplessShapes, List.mem_sigma, List.mem_map, List.mem_range]
  constructor
  · rintro ⟨-, k, hk, rfl⟩
    omega
  · rintro ⟨ha, h⟩
    exact ⟨by omega, a - 1, by omega, by omega⟩

theorem gaplessShapes_nodup : gaplessShapes.Nodup :=
  List.nodup_range.sigma fun _ => List.nodup_range.map (add_left_injective 1)

theorem gaplessShapes_length : gaplessShapes.length = 496 := by
  simp only [gaplessShapes, List.length_sigma, List.length_map, List.length_range]
  decide

/-- The valid operands without a gap (R102). -/
def gaplessOperands : List Word := gaplessShapes.map fun p => onesThenZeros p.2 p.1

theorem gaplessOperands_nodup : gaplessOperands.Nodup := by
  refine gaplessShapes_nodup.map_on fun p hp q hq heq => ?_
  obtain ⟨hp1, hp31⟩ := mem_gaplessShapes.1 hp
  obtain ⟨hq1, hq31⟩ := mem_gaplessShapes.1 hq
  obtain ⟨ha, hb⟩ := onesThenZeros_inj hp1 hq1 hp31 hq31 heq
  exact Sigma.ext hb (heq_of_eq ha)

theorem mem_gaplessOperands {n : Word} : n ∈ gaplessOperands ↔ valid n = true ∧ lbg n = 0 := by
  simp only [gaplessOperands, List.mem_map, mem_gaplessShapes, Sigma.exists]
  constructor
  · rintro ⟨b, a, ⟨ha, h⟩, rfl⟩
    exact ⟨valid_onesThenZeros ha h, lbg_onesThenZeros h⟩
  · rintro ⟨hn, h⟩
    obtain ⟨a, b, ha, hab, rfl⟩ := exists_onesThenZeros_of_lbg_eq_zero hn h
    exact ⟨b, a, ⟨ha, hab⟩, rfl⟩

/-! ### The obligations -/

/-- Settles O47: `g` gaps take `2g + 1` bits, and 31 bits hold 15 gaps in one way only. -/
theorem scanIterationsAreAtMostFifteen : Obligations.ScanIterationsAreAtMostFifteen := by
  intro n hn
  have hcount := gapCount_le_of_valid hn
  exact ⟨hcount, by omega, gapCount_eq_fifteen_iff hn, fun k => by
    rw [scanCursor_eq_cursorAtGap, cursorAtGap_eq_zero_iff]⟩

/-- Settles O41: the scan lasts until no gap is left, and what it then answers is the longest. -/
theorem gapAnswersLongestBinaryGap : Obligations.GapAnswersLongestBinaryGap := by
  intro n inp later s ha hd hl
  refine ⟨fun hn => ⟨fun hk => ?_, fun hk => ?_, by omega, ?_⟩, fun hn =>
    ⟨_, clockEdge_gap_of_invalid hn ha hd, rfl, rfl, rfl, rfl⟩⟩
  · obtain ⟨t, hrun, hscan, -⟩ := runEdges_gap_scans hn ha hd hl hk
    have hzero := hscan.cur_eq_zero_iff
    obtain ⟨-, -, hfsm, hdone, -⟩ := hscan
    exact ⟨t, hrun, hfsm, hdone, hzero⟩
  · obtain ⟨t, hrun, hscan⟩ := runEdges_gap_completes hn ha hd hl hk
    have hlbg := hscan.maxg_toNat_eq_lbg
    exact ⟨_, hrun, rfl, rfl, hlbg, rfl, by simp [← hlbg]⟩
  · have := gapCount_le_of_valid hn
    omega

/-- Settles O43: a gap lies within bits 29 to 1, and a scan measures nothing else. -/
theorem longestGapIsAtMostTwentyNine : Obligations.LongestGapIsAtMostTwentyNine := by
  intro n hn
  refine ⟨lbg_le_of_valid hn, lbg_eq_twentyNine_iff hn, fun inp later s t ha hd hl hrun hk => ?_⟩
  obtain ⟨u, hrun', hscan, -⟩ := runEdges_gap_scans hn ha hd hl hk
  obtain rfl : t = u := by simpa [hrun] using hrun'
  obtain ⟨-, -, hfsm, -, hcur, hmaxg⟩ := hscan
  have hlt : t.cur.toNat < 2 ^ 30 := by
    rw [hcur, ← scanCursor_eq_cursorAtGap]
    exact scanCursor_toNat_lt_of_valid hn _
  exact ⟨hfsm, hlt, fun hne => Nat.le_of_lt_succ (ctz32_lt_of_toNat_lt hne hlt),
    hmaxg ▸ (longestOf_take_le_lbg n _).trans (lbg_le_of_valid hn)⟩

/-- Settles O44: without a gap a word is one run of ones above its low zeros, and the 496 shapes of such
a word below `2^31` are counted. -/
theorem noGapOperandsAreOnesThenZeros : Obligations.NoGapOperandsAreOnesThenZeros := by
  refine ⟨fun n hn => ?_, gaplessOperands, gaplessOperands_nodup, ?_, fun n => mem_gaplessOperands⟩
  · rw [lbg_eq_zero_iff_onesThenZeros hn]
    refine exists₂_congr fun a b => and_congr_right fun _ => and_congr_right fun h => ?_
    rw [← onesThenZeros_toNat h, BitVec.toNat_eq]
  · rw [gaplessOperands, List.length_map, gaplessShapes_length]

/-- Settles O46: the amounts are bounded by the width of the value they are shifted out of, and reach it
only when that value is all ones. -/
theorem scanShiftAmountsAreBounded : Obligations.ScanShiftAmountsAreBounded := by
  refine ⟨fun n hn => ?_, fun n hn => ?_⟩
  · have hlt := ((valid_iff_toNat n).1 hn).2
    obtain ⟨hctz, hcto⟩ := shiftAmounts_le_of_toNat_lt (valid_ne_zero hn) hlt
    refine ⟨hctz, hcto, ⟨fun h => ?_, by rintro rfl; decide⟩, fun k hk => ?_⟩
    · exact BitVec.eq_of_toNat_eq (toNat_eq_of_cto32_stripZeros_eq hlt h)
    · obtain ⟨hctz, hcto⟩ := shiftAmounts_le_of_toNat_lt hk (scanCursor_toNat_lt_of_valid hn k)
      omega
  · obtain ⟨hctz, hcto⟩ := shiftAmounts_le_of_toNat_lt hn n.isLt
    refine ⟨hctz, hcto, ⟨fun h => ?_, by rintro rfl; decide⟩, fun k hk => ?_⟩
    · exact BitVec.eq_of_toNat_eq (toNat_eq_of_cto32_stripZeros_eq n.isLt h)
    · obtain ⟨hctz, hcto⟩ := shiftAmounts_le_of_toNat_lt hk (scanCursor_toNat_lt_of_ne_zero hn k)
      omega

end Sys2Proof.Machine
end

section
/-! PROOF. Reversal within the significant bits (41_binary_gap_scanner.md R103). -/

namespace Sys2Proof.Machine

/-! ### Leading zeros, and the window of the significant bits -/

theorem getLsbD_reverse_of_lt (x : Word) {i : Nat} (hi : i < 32) :
    x.reverse.getLsbD i = x.getLsbD (31 - i) := by
  rw [BitVec.getLsbD_reverse, BitVec.getMsbD_eq_getLsbD, decide_eq_true hi, Bool.true_and]

/-- The leading zeros of a word are the trailing zeros of its mirror image. -/
theorem clz32_eq_ctz32_reverse (x : Word) : clz32 x = ctz32 x.reverse := by
  rw [clz32, ctz32, List.find?_congr fun i hi => (getLsbD_reverse_of_lt x (List.mem_range.1 hi)).symm]

theorem revWindow_eq_stripZeros_reverse (n : Word) : revWindow n = stripZeros n.reverse := by
  rw [revWindow, clz32_eq_ctz32_reverse, stripZeros]

/-- Bit `k` of the window is bit `L - 1 - k` of the word (R103). -/
theorem getLsbD_revWindow (n : Word) {k : Nat} (hk : k < significantBits n) :
    (revWindow n).getLsbD k = n.getLsbD (significantBits n - 1 - k) := by
  unfold significantBits at hk ⊢
  rw [revWindow, getLsbD_shr, getLsbD_reverse_of_lt n (by omega)]
  congr 1
  omega

theorem getLsbD_revWindow_of_ge (n : Word) {k : Nat} (hk : significantBits n ≤ k) :
    (revWindow n).getLsbD k = false := by
  unfold significantBits at hk
  rw [revWindow, getLsbD_shr]
  exact BitVec.getLsbD_of_ge _ _ (by omega)

/-- There is no one bit above the significant ones. -/
theorem lt_significantBits_of_getLsbD {n : Word} {k : Nat} (h : n.getLsbD k = true) :
    k < significantBits n := by
  have hk : k < 32 := BitVec.lt_of_getLsbD h
  have hmirror : n.reverse.getLsbD (31 - k) = true := by
    rw [getLsbD_reverse_of_lt n (by omega), Nat.sub_sub_self (by omega), h]
  have hle := ctz32_lt_of_getLsbD hmirror
  rw [significantBits, clz32_eq_ctz32_reverse]
  omega

theorem reverse_ne_zero {n : Word} (h : n ≠ 0) : n.reverse ≠ 0 := by
  intro hr
  have hlt := (ctz32_lt_iff n).2 h
  have hmirror := getLsbD_reverse_of_lt n (i := 31 - ctz32 n) (by omega)
  rw [hr, Nat.sub_sub_self (by omega), getLsbD_ctz32 h] at hmirror
  simp at hmirror

theorem significantBits_pos {n : Word} (h : n ≠ 0) : 0 < significantBits n :=
  Nat.zero_lt_of_lt (lt_significantBits_of_getLsbD (getLsbD_ctz32 h))

theorem revWindow_getLsbD_zero {n : Word} (h : n ≠ 0) : (revWindow n).getLsbD 0 = true := by
  rw [revWindow_eq_stripZeros_reverse]
  exact stripZeros_getLsbD_zero (reverse_ne_zero h)

/-- The top significant bit is a one. -/
theorem getLsbD_significantBits_sub_one {n : Word} (h : n ≠ 0) :
    n.getLsbD (significantBits n - 1) = true := by
  rw [← revWindow_getLsbD_zero h, getLsbD_revWindow n (significantBits_pos h), Nat.sub_zero]

theorem toNat_lt_two_pow_significantBits (n : Word) : n.toNat < 2 ^ significantBits n :=
  Nat.lt_pow_two_of_testBit _ fun k hk => by
    by_contra hbit
    have hlt := lt_significantBits_of_getLsbD (n := n) (k := k) (Bool.of_not_eq_false hbit)
    omega

theorem revWindow_toNat_lt (n : Word) : (revWindow n).toNat < 2 ^ significantBits n :=
  Nat.lt_pow_two_of_testBit _ fun _ hk => getLsbD_revWindow_of_ge n hk

theorem significantBits_le_of_valid {n : Word} (hn : valid n = true) : significantBits n ≤ 31 := by
  have hlow := Nat.ge_two_pow_of_testBit (getLsbD_significantBits_sub_one (valid_ne_zero hn))
  have hlt := (Nat.pow_lt_pow_iff_right Nat.one_lt_two).1
    (hlow.trans_lt ((valid_iff_toNat n).1 hn).2)
  omega

theorem valid_revWindow {n : Word} (hn : valid n = true) : valid (revWindow n) = true := by
  have hone := revWindow_getLsbD_zero (valid_ne_zero hn)
  exact (valid_iff_sign _).2
    ⟨fun hz => by simp [hz] at hone, getLsbD_revWindow_of_ge n (significantBits_le_of_valid hn)⟩

/-! ### The mirror image of a gap -/

/-- Mirroring the first `L` bits of `x` onto those of `y` takes a gap to a gap with its ends exchanged. -/
theorem isGap_mirror {x y : Word} {L i j : Nat}
    (hxy : ∀ k < L, y.getLsbD k = x.getLsbD (L - 1 - k)) (hj : j < L) (h : isGap x i j = true) :
    isGap y (L - j) (L - i) = true := by
  obtain ⟨hi, hij, hone, htop, hzero⟩ := isGap_iff.1 h
  refine isGap_iff.2 ⟨by omega, by omega, ?_, ?_, fun k hk hkt => ?_⟩
  · rwa [hxy _ (by omega), show L - 1 - (L - j - 1) = j by omega]
  · rwa [hxy _ (by omega), show L - 1 - (L - i) = i - 1 by omega]
  · rw [hxy _ (by omega)]
    exact hzero _ (by omega) (by omega)

theorem isGap_revWindow {n : Word} {i j : Nat} (h : isGap n i j = true) :
    isGap (revWindow n) (significantBits n - j) (significantBits n - i) = true := by
  obtain ⟨-, -, -, htop, -⟩ := isGap_iff.1 h
  exact isGap_mirror (fun _ => getLsbD_revWindow n) (lt_significantBits_of_getLsbD htop) h

/-- A gap of the window ends within it. -/
theorem lt_significantBits_of_isGap_revWindow {n : Word} {i j : Nat}
    (h : isGap (revWindow n) i j = true) : j < significantBits n := by
  obtain ⟨-, -, -, htop, -⟩ := isGap_iff.1 h
  by_contra! hge
  simp [getLsbD_revWindow_of_ge n hge] at htop

theorem isGap_of_isGap_revWindow {n : Word} {i j : Nat} (h : isGap (revWindow n) i j = true) :
    isGap n (significantBits n - j) (significantBits n - i) = true := by
  refine isGap_mirror (fun k hk => ?_) (lt_significantBits_of_isGap_revWindow h) h
  rw [getLsbD_revWindow n (by omega), Nat.sub_sub_self (by omega)]

theorem isGap_revWindow_iff {n : Word} {i j : Nat} (hi : i ≤ significantBits n)
    (hj : j ≤ significantBits n) :
    isGap n i j = true ↔
      isGap (revWindow n) (significantBits n - j) (significantBits n - i) = true := by
  refine ⟨isGap_revWindow, fun h => ?_⟩
  have hback := isGap_of_isGap_revWindow h
  rwa [Nat.sub_sub_self hi, Nat.sub_sub_self hj] at hback

theorem lbg_revWindow (n : Word) : lbg (revWindow n) = lbg n := by
  refine le_antisymm ((lbg_le_iff _ _).2 fun i j h => ?_) ((lbg_le_iff _ _).2 fun i j h => ?_)
  · have hlen := (lbg_le_iff n _).1 le_rfl _ _ (isGap_of_isGap_revWindow h)
    have hj := lt_significantBits_of_isGap_revWindow h
    omega
  · have hlen := (lbg_le_iff (revWindow n) _).1 le_rfl _ _ (isGap_revWindow h)
    obtain ⟨-, -, -, htop, -⟩ := isGap_iff.1 h
    have hj := lt_significantBits_of_getLsbD htop
    omega

/-- Settles O45: the window mirrors the significant bits, so each gap keeps its length. -/
theorem reversalKeepsLongestGap : Obligations.ReversalKeepsLongestGap := by
  intro n hn
  refine ⟨valid_revWindow hn, revWindow_toNat_lt n,
    Nat.ge_two_pow_of_testBit (getLsbD_significantBits_sub_one (valid_ne_zero hn)),
    toNat_lt_two_pow_significantBits n, fun k => getLsbD_revWindow n, fun i j hi hj => ?_,
    lbg_revWindow n⟩
  rw [mem_gaps, mem_gaps]
  exact isGap_revWindow_iff hi hj

end Sys2Proof.Machine
end

section
/-! PROOF. The accepting edges that report an error (60_exceptions.md R117). -/

namespace Sys2Proof.Machine

theorem clockEdge_of_op3 {v : Word} {inp : Input} {s : State} (ha : accepts inp s = true)
    (hd : decodeWord (sampledWord inp) = .op3 v) :
    clockEdge inp s = .next (s.respondError .illegalOp) := by
  rw [clockEdge_of_accepts ha, hd]
  rfl

/-- Both ways in which an accepted command fails report the error by `respondError` (R110, R111). -/
theorem clockEdge_of_failing {inp : Input} {s : State} (ha : accepts inp s = true)
    (hf : (∃ v, decodeWord (sampledWord inp) = .op3 v) ∨
      (∃ v, decodeWord (sampledWord inp) = .gap v ∧ valid v = false)) :
    ∃ st : Status, st ≠ .ok ∧ clockEdge inp s = .next (s.respondError st) := by
  obtain ⟨v, hd⟩ | ⟨v, hd, hv⟩ := hf
  · exact ⟨.illegalOp, by decide, clockEdge_of_op3 ha hd⟩
  · exact ⟨.invalidArgument, by decide, clockEdge_gap_of_invalid hv ha hd⟩

/-- Settles O32: the edge is `respondError`, which leaves FSM at IDLE, where the accept found it. -/
theorem errorsChangeOnlyTheResponse : Obligations.ErrorsChangeOnlyTheResponse := by
  intro inp s ha hf
  obtain ⟨st, hst, h⟩ := clockEdge_of_failing ha hf
  obtain ⟨-, -, hidle⟩ := (accepts_iff inp s).1 ha
  exact ⟨s.respondError st, h, s.respondError_done st, hst, s.respondError_result st, hidle.symm,
    s.respondError_cur st, s.respondError_maxg st, s.respondError_host st, by simp⟩

end Sys2Proof.Machine
end

section
/-! PROOF. The output ports after reset (70_reset_and_hazards.md R131). -/

namespace Sys2Proof.Machine

@[simp] theorem State.reset_outputs : State.reset.outputs =
    { cmdReady := true, rspValid := false, rspResult := 0, rspStatus := 0b00#2 } := rfl

/-- A reset edge keeps only the host's lines, which no port shows. -/
@[simp] theorem State.enterReset_outputs (s : State) : s.enterReset.outputs = State.reset.outputs :=
  State.outputs_congr s.enterReset_fsm s.enterReset_done s.enterReset_result s.enterReset_status

/-- Settles O24: a reset edge goes to `enterReset`, whose ports are those of the reset state. -/
theorem resetOutputsAreReadyAndQuiet : Obligations.ResetOutputsAreReadyAndQuiet := by
  refine ⟨fun inp s t hrst h => ?_, State.reset_outputs⟩
  obtain rfl : s.enterReset = t := by simpa [clockEdge_of_rst s hrst] using h
  exact s.enterReset_outputs.trans State.reset_outputs

end Sys2Proof.Machine
end

section
/-! PROOF. Decoding and encoding as inverses, and numbers as command words (30_encoding.md R51, R52,
R54). -/

namespace Sys2Proof

/-! ### Encoding what was decoded -/

theorem Mnemonic.encode_instr (m : Mnemonic) (v : Word) :
    encode (m.instr v) = CommandWord.ofFields m.op v := by
  cases m <;> rfl

theorem encode_decodeWord (w : CommandWord) : encode (decodeWord w) = w := by
  obtain ⟨m, hm⟩ := w.exists_mnemonic_op
  rw [decodeWord_of_op hm, Mnemonic.encode_instr, ← hm, CommandWord.ofFields_op_operand]

theorem encode_instr_and_opMask (m : Mnemonic) (v : Word) :
    encode (m.instr v) &&& 0x3_0000_0000#34 = CommandWord.ofFields m.op 0 := by
  rw [CommandWord.and_opMask, Mnemonic.encode_instr, CommandWord.op_ofFields]

/-! ### Decoding numbers -/

theorem decode_of_lt {w : Nat} (h : w < 2 ^ 34) :
    decode w = .ok (decodeWord (BitVec.ofNat 34 w)) :=
  if_pos (decide_eq_true h)

theorem decode_of_le {w : Nat} (h : 2 ^ 34 ≤ w) : decode w = .error .widerThanCommandWord :=
  if_neg (by simpa [commandWordWellFormed] using h)

/-! ### The obligations -/

/-- Settles O2: a word is its two fields, and each op selects its mnemonic. -/
theorem decodeAndEncodeAreInverse : Obligations.DecodeAndEncodeAreInverse :=
  ⟨decodeWord_encode, encode_decodeWord⟩

/-- Settles O4: a number below `2^34` is the word it is cut to. -/
theorem onlyThirtyFourBitNumbersDecode : Obligations.OnlyThirtyFourBitNumbersDecode := by
  intro w
  refine ⟨fun h => ⟨_, decode_of_lt h, ?_⟩, decode_of_le⟩
  rw [encode_decodeWord, BitVec.toNat_ofNat, Nat.mod_eq_of_lt h]

end Sys2Proof
end

section
/-! PROOF. The laws of the bit primitives and of the shift (00_scope.md R12; 40_bit_primitives.md
R79). -/

namespace Sys2Proof.Machine

/-- Nothing but 0 has no one bit (R79 item 2). -/
theorem ctz32_eq_thirtyTwo_iff (x : Word) : ctz32 x = 32 ↔ x = 0 := by
  rw [← not_iff_not, ← Ne, ← Ne, ← ctz32_lt_iff, (ctz32_le x).lt_iff_ne]

theorem cto32_eq_thirtyTwo_iff (x : Word) : cto32 x = 32 ↔ x = 0xFFFF_FFFF#32 := by
  rw [cto32, ctz32_eq_thirtyTwo_iff, complement_eq_zero_iff]

theorem ctz32_pos_iff (x : Word) : 0 < ctz32 x ↔ x.getLsbD 0 = false := by
  rw [Nat.pos_iff_ne_zero, Ne, ctz32_eq_zero_iff, Bool.not_eq_true]

theorem cto32_pos_iff (x : Word) : 0 < cto32 x ↔ x.getLsbD 0 = true := by
  rw [Nat.pos_iff_ne_zero, Ne, cto32_eq_zero_iff, Bool.not_eq_false]

theorem cto32_complement (x : Word) : cto32 (~~~x) = ctz32 x := by
  rw [cto32, BitVec.not_not]

theorem toNat_lowestSetBit {x : Word} (h : x ≠ 0) : (lowestSetBit x).toNat = 2 ^ ctz32 x := by
  have hlt : 2 ^ ctz32 x < 2 ^ 32 := Nat.pow_lt_pow_right Nat.one_lt_two ((ctz32_lt_iff x).2 h)
  rw [lowestSetBit_eq_two_pow, BitVec.toNat_ofNat, Nat.mod_eq_of_lt hlt]

/-! ### The obligations -/

/-- Settles O7, law by law in the order of the section. -/
theorem bitPrimitiveLaws : Obligations.BitPrimitiveLaws := by
  intro x
  refine ⟨⟨ctz32_le x, cto32_le x⟩, ⟨ctz32_eq_thirtyTwo_iff x, cto32_eq_thirtyTwo_iff x⟩, ?_, ?_,
    ⟨ctz32_pos_iff x, cto32_pos_iff x, ?_⟩, ⟨rfl, (cto32_complement x).symm⟩,
    fun h _ => ctz32_shr h, toNat_lowestSetBit⟩
  · exact fun h => ⟨getLsbD_ctz32 h, fun _ => getLsbD_of_lt_ctz32, stripZeros_getLsbD_zero h⟩
  · exact fun h => ⟨getLsbD_cto32 h, fun _ => getLsbD_of_lt_cto32, stripOnes_getLsbD_zero x⟩
  · rw [ctz32_eq_zero_iff, ← cto32_pos_iff, Nat.pos_iff_ne_zero]

/-- Settles O8. -/
theorem shiftIsFloorDivision : Obligations.ShiftIsFloorDivision :=
  fun v s => ⟨fun _ => toNat_shr v s, shr_of_le v⟩

end Sys2Proof.Machine
end

section
/-! PROOF. What an accepted command answers (30_encoding.md R56; 40_bit_primitives.md R72, R73, R80;
41_binary_gap_scanner.md R95; 60_exceptions.md R111, R114). -/

namespace Sys2Proof.Machine

/-! ### The commands, one equation each -/

theorem exec_ctz (x : Word) (s : State) :
    exec (.ctz x) s = .next (s.respond (BitVec.ofNat 6 (ctz32 x)) .ok) := rfl

theorem exec_cto (x : Word) (s : State) :
    exec (.cto x) s = .next (s.respond (BitVec.ofNat 6 (cto32 x)) .ok) := rfl

theorem exec_op3 (v : Word) (s : State) : exec (.op3 v) s = .next (s.respondError .illegalOp) := rfl

theorem exec_gap_of_invalid {v : Word} (s : State) (hv : valid v = false) :
    exec (.gap v) s = .next (s.respondError .invalidArgument) := execGap_of_invalid s hv

/-- What a command writes does not depend on the state: one response, or the start of one scan. -/
theorem exec_uniform (i : Instr) :
    (∃ r st, ∀ s, exec i s = .next (s.respond r st)) ∨
      ∃ c, ∀ s, exec i s = .next (s.startScan c) := by
  cases i with
  | ctz x => exact .inl ⟨_, _, exec_ctz x⟩
  | cto x => exact .inl ⟨_, _, exec_cto x⟩
  | gap v =>
    cases hv : valid v with
    | true => exact .inr ⟨_, fun s => exec_gap_of_valid s hv⟩
    | false => exact .inl ⟨0, .invalidArgument, fun s => exec_gap_of_invalid s hv⟩
  | op3 v => exact .inl ⟨0, .illegalOp, exec_op3 v⟩

/-! ### The operand of `gap` -/

theorem valid_eq_false_iff_sign (v : Word) : valid v = false ↔ v = 0 ∨ v.getLsbD 31 = true := by
  rw [← Bool.not_eq_true, valid_iff_sign, not_and_or, not_not, Bool.not_eq_false]

theorem valid_iff_one_le_sval (v : Word) : valid v = true ↔ 1 ≤ sval v :=
  (validOperandsArePositive v).1

theorem valid_eq_false_iff_sval (v : Word) : valid v = false ↔ sval v < 1 := by
  rw [← Bool.not_eq_true, valid_iff_one_le_sval, not_le]

/-- Bit 31 weighs `-2^31` (00_scope.md R11). -/
theorem sval_eq_toInt (v : Word) : sval v = v.toInt := by
  rw [sval, BitVec.toInt_eq_msb_cond, BitVec.msb_eq_getLsbD_last]
  rfl

theorem sval_of_valid {v : Word} (h : valid v = true) : sval v = v.toNat := by
  obtain ⟨-, hsign⟩ := (valid_iff_sign v).1 h
  rw [sval, hsign]
  exact if_neg Bool.false_ne_true

theorem sval_emod (v : Word) : sval v % 2 ^ 32 = v.toNat := by
  have hv := v.isLt
  rw [sval_eq_toInt, BitVec.toInt_eq_toNat_bmod]
  exact Int.bmod_emod.trans (Int.emod_eq_of_lt (by omega) (by omega))

/-! ### Literals -/

theorem literalWellFormed_iff (v : Int) :
    literalWellFormed v = true ↔ -2 ^ 31 ≤ v ∧ v < 2 ^ 32 := by
  simp [literalWellFormed]

theorem literalOperand_toNat {v : Int} (h : literalWellFormed v = true) (hv : 0 ≤ v) :
    ((literalOperand v).toNat : Int) = v := by
  obtain ⟨-, hlt⟩ := (literalWellFormed_iff v).1 h
  rw [literalOperand, BitVec.toNat_ofInt]
  omega

theorem sval_literalOperand {v : Int} (h : literalWellFormed v = true) (hv : v < 0) :
    sval (literalOperand v) = v := by
  obtain ⟨hle, -⟩ := (literalWellFormed_iff v).1 h
  rw [sval_eq_toInt, literalOperand, BitVec.toInt_ofInt]
  exact Int.bmod_eq_of_le (by omega) (by omega)

/-! ### The responses -/

@[simp] theorem respondError_invalidArgument_response (s : State) :
    (s.respondError .invalidArgument).response = .error .invalidArgument := rfl

@[simp] theorem respondError_illegalOp_response (s : State) :
    (s.respondError .illegalOp).response = .error .illegalOp := rfl

/-- Everything a response can be (R29, R114). -/
theorem State.response_cases (s : State) :
    s.response = .pending ∨ (s.status = .ok ∧ s.response = .answer s.result) ∨
      (∃ e, s.response = .error e) ∨ (s.status = .reserved ∧ s.response = .reservedStatus) := by
  cases hd : s.done with
  | false => exact .inl (State.response_of_not_done hd)
  | true =>
    cases hs : s.status with
    | ok => exact .inr (.inl ⟨rfl, by simp [State.response, hd, hs]⟩)
    | invalidArgument =>
      exact .inr (.inr (.inl ⟨.invalidArgument, by simp [State.response, hd, hs]⟩))
    | illegalOp => exact .inr (.inr (.inl ⟨.illegalOp, by simp [State.response, hd, hs]⟩))
    | reserved => exact .inr (.inr (.inr ⟨rfl, by simp [State.response, hd, hs]⟩))

/-- A number is read with STATUS = OK only (R114). -/
theorem State.status_of_response_answer {s : State} {r : U6} (h : s.response = .answer r) :
    s.status = .ok := by
  rcases s.response_cases with h' | ⟨hok, -⟩ | ⟨e, h'⟩ | ⟨-, h'⟩
  · simp [h'] at h
  · exact hok
  · simp [h'] at h
  · simp [h'] at h

/-- The reserved response is that of the reserved code (R111). -/
theorem State.status_of_response_reservedStatus {s : State} (h : s.response = .reservedStatus) :
    s.status = .reserved := by
  rcases s.response_cases with h' | ⟨-, h'⟩ | ⟨e, h'⟩ | ⟨hres, -⟩
  · simp [h'] at h
  · simp [h'] at h
  · simp [h'] at h
  · exact hres

/-! ### The obligations -/

/-- Settles O11. -/
theorem ctzCommandAnswersTrailingZeros : Obligations.CtzCommandAnswersTrailingZeros :=
  ⟨fun x s => ⟨_, exec_ctz x s, toNat_ofNat_ctz32 x, rfl, rfl, rfl, rfl, rfl, rfl⟩,
    fun x => ⟨rfl, (encode_instr_and_opMask .ctz x).trans (by decide)⟩, ctz32_zero, by decide,
    fun x => (ctz32_eq_zero_iff x).2, ctz32_le, by decide⟩

/-- Settles O12. -/
theorem ctoCommandAnswersTrailingOnes : Obligations.CtoCommandAnswersTrailingOnes :=
  ⟨fun x s => ⟨_, exec_cto x s, toNat_ofNat_cto32 x, rfl, rfl, rfl, rfl, rfl, rfl⟩,
    fun x => ⟨rfl, (encode_instr_and_opMask .cto x).trans (by decide)⟩, by decide, by decide,
    fun x => (cto32_eq_zero_iff x).2, by decide⟩

/-- Settles O13. -/
theorem reservedOpAnswersIllegalOp : Obligations.ReservedOpAnswersIllegalOp :=
  fun v s => ⟨_, exec_op3 v s, rfl, rfl, rfl, rfl, rfl, rfl, rfl, rfl⟩

/-- Settles O14: the two hypotheses are the two outcomes of the validity test. -/
theorem gapAcceptStartsScanOrReportsError : Obligations.GapAcceptStartsScanOrReportsError := by
  intro v s
  refine ⟨fun hne hsign => ?_, fun hbad => ?_⟩
  · exact ⟨_, _, exec_gap_of_valid s ((valid_iff_sign v).2 ⟨hne, hsign⟩), rfl,
      stripZeros_getLsbD_zero hne, rfl, rfl, rfl, rfl, rfl, rfl, rfl⟩
  · exact ⟨_, exec_gap_of_invalid s ((valid_eq_false_iff_sign v).2 hbad), rfl, rfl, rfl, rfl,
      fun _ => rfl, rfl, rfl, rfl⟩

/-- Settles O30: `sval` is the library's signed value, and a literal's pattern is its residue. -/
theorem operandReadingsAgree : Obligations.OperandReadingsAgree :=
  ⟨fun _ => sval_of_valid,
    fun v => ⟨sval_eq_toInt v ▸ v.le_toInt, sval_eq_toInt v ▸ v.toInt_lt, sval_emod v⟩,
    fun _ hv => ⟨literalOperand_toNat hv, sval_literalOperand hv⟩⟩

/-- Settles O33: only an answer has a number, and the errors are `respondError`. -/
theorem errorResponsesHaveNoNumber : Obligations.ErrorResponsesHaveNoNumber := by
  refine ⟨fun s r hs h => hs (State.status_of_response_answer h), fun v s t hv h => ?_,
    fun v s t h => ?_, fun v => ?_⟩
  · rw [exec_gap_of_invalid s ((valid_eq_false_iff_sval v).2 hv)] at h
    cases h
    exact ⟨respondError_invalidArgument_response s, rfl⟩
  · cases h
    exact ⟨respondError_illegalOp_response s, rfl⟩
  · cases hv : valid v with
    | true => rw [longestBinaryGap, if_pos hv, if_neg (not_lt.2 ((valid_iff_one_le_sval v).1 hv))]
    | false =>
      rw [if_pos ((valid_eq_false_iff_sval v).1 hv), longestBinaryGap, hv]
      exact if_neg Bool.false_ne_true

end Sys2Proof.Machine
end

section
/-! PROOF. One edge and successive edges: totality, reset and an idle block (10_state.md R26, R33;
60_exceptions.md R124; 70_reset_and_hazards.md R130, R133, R134). -/

namespace Sys2Proof.Machine

/-! ### One edge -/

/-- At an accepting edge, the two command ports name the command. -/
theorem clockEdge_of_accepts_fields {inp : Input} {s : State} (h : accepts inp s = true) :
    clockEdge inp s = exec (decodeFields inp.cmdOp inp.cmdOperand) s := by
  rw [clockEdge_of_accepts h, decodeWord, sampledWord, CommandWord.op_ofFields,
    CommandWord.operand_ofFields]

/-- An edge that accepts nothing is a reset edge, a scan edge or a quiet one. -/
theorem accepts_eq_false_cases {inp : Input} {s : State} (h : accepts inp s = false) :
    inp.rst = true ∨ (inp.rst = false ∧ s.fsm = .scan) ∨
      (inp.rst = false ∧ s.fsm = .idle ∧ inp.cmdValid = false) := by
  cases hr : inp.rst with
  | true => exact .inl rfl
  | false =>
    cases hs : s.fsm with
    | scan => exact .inr (.inl ⟨rfl, rfl⟩)
    | idle => exact .inr (.inr ⟨rfl, rfl, by simpa [accepts, hr, hs] using h⟩)

theorem State.enterReset_eq_reset_withHost (s : State) :
    s.enterReset = State.reset.withHost s.host := rfl

/-! ### Successive edges -/

/-- No sequence of edges stops the machine. -/
theorem runEdges_total (ins : List Input) (s : State) : ∃ t, runEdges ins s = .next t := by
  induction ins generalizing s with
  | nil => exact ⟨s, rfl⟩
  | cons inp ins ih =>
    obtain ⟨t, h⟩ := clockEdge_total inp s
    rw [runEdges_cons h]
    exact ih t

/-- A state that every edge of a sequence keeps is kept by the sequence. -/
theorem runEdges_of_fixed {ins : List Input} {s : State}
    (h : ∀ inp ∈ ins, clockEdge inp s = .next s) : runEdges ins s = .next s := by
  induction ins with
  | nil => rfl
  | cons inp ins ih =>
    obtain ⟨hinp, hins⟩ := List.forall_mem_cons.1 h
    rw [runEdges_cons hinp, ih hins]

theorem noReset_iff {ins : List Input} :
    noReset ins = true ↔ ∀ inp ∈ ins, inp.rst = false := by
  simp [noReset]

theorem noOffer_iff {ins : List Input} :
    noOffer ins = true ↔ ∀ inp ∈ ins, inp.cmdValid = false := by
  simp [noOffer]

/-- The state after a reset edge is kept by any edge that offers nothing, reset edges among them. -/
theorem clockEdge_enterReset_of_not_offered {inp : Input} (s : State) (hv : inp.cmdValid = false) :
    clockEdge inp s.enterReset = .next s.enterReset := by
  cases hr : inp.rst with
  | true => rw [clockEdge_of_rst _ hr, State.enterReset_enterReset]
  | false => exact clockEdge_of_quiet hr s.enterReset_fsm hv

/-! ### The obligations -/

/-- Settles O16: the cases of the spec's function are those of the edge's own lemmas, and an accepted
command is dispatched on its op. -/
theorem clockEdgeFollowsStepFunction : Obligations.ClockEdgeFollowsStepFunction := by
  intro inp s
  refine ⟨clockEdge_of_rst s, fun hr hs hv => ?_,
    fun hr hs => ⟨clockEdge_of_completing hr hs, clockEdge_of_iterating hr hs⟩, clockEdge_of_quiet⟩
  have hedge := clockEdge_of_accepts_fields ((accepts_iff inp s).2 ⟨hr, hv, hs⟩)
  refine ⟨fun hop => ?_, fun hop => ?_, fun hop => ?_, fun hop => ?_⟩
  all_goals rw [hedge, hop]; rfl

/-- Settles O17. -/
theorem everyStepAnswersNext : Obligations.EveryStepAnswersNext :=
  ⟨fun s => clockEdge_total s.hostInput (s.withHost s.hostLeft), runEdges_total⟩

/-- Settles O20: of the ports, a reset or scan edge reads `rst` alone, a quiet one `cmd_valid` also. -/
theorem commandPortsUnseenUnlessAccepted : Obligations.CommandPortsUnseenUnlessAccepted := by
  intro inp s op v ha
  rcases accepts_eq_false_cases ha with hr | ⟨-, hs⟩ | ⟨hr, hs, hv⟩
  · rw [clockEdge_of_rst s hr]
    exact clockEdge_of_rst s hr
  · exact clockEdge_congr_of_scan hs rfl
  · rw [clockEdge_of_quiet hr hs hv]
    exact clockEdge_of_quiet hr hs hv

/-- Settles O23. -/
theorem resetEdgeEntersResetState : Obligations.ResetEdgeEntersResetState :=
  fun _ s hr => ⟨_, clockEdge_of_rst s hr, rfl, rfl, rfl, rfl, rfl, rfl, rfl, rfl, rfl⟩

/-- Settles O26: after the reset edge FSM is IDLE, so the offer is accepted. -/
theorem bootNeedsOneResetEdge : Obligations.BootNeedsOneResetEdge := by
  intro s inp i hr
  rw [runEdges_cons (clockEdge_of_rst s hr), runEdges_singleton,
    clockEdge_offerInput i s.enterReset_fsm, State.enterReset_eq_reset_withHost]

/-- Settles O27: each edge is quiet. -/
theorem idleBlockHoldsEveryRegister : Obligations.IdleBlockHoldsEveryRegister :=
  fun _ _ hs hr hv => runEdges_of_fixed fun inp hinp =>
    clockEdge_of_quiet (noReset_iff.1 hr inp hinp) hs (noOffer_iff.1 hv inp hinp)

/-- Settles O28: the edges after the reset edge keep the state it entered. -/
theorem resetAbandonsScan : Obligations.ResetAbandonsScan := by
  intro inp later s hs hr hv
  refine ⟨by simp [accepts, hr], s.enterReset, ?_, rfl, rfl, rfl, rfl, rfl⟩
  rw [runEdges_cons (clockEdge_of_rst s hr)]
  exact runEdges_of_fixed fun inp hinp =>
    clockEdge_enterReset_of_not_offered s (noOffer_iff.1 hv inp hinp)

end Sys2Proof.Machine
end

section
/-! PROOF. The edges that give a response, those that start a scan, and the status codes (10_state.md
R30; 60_exceptions.md R111). -/

namespace Sys2Proof.Machine

/-! ### The kinds of edges -/

/-- Each accepted command is answered at once or starts a scan. -/
theorem responding_or_starting_of_accepts {inp : Input} {s : State} (ha : accepts inp s = true) :
    RespondingEdge inp s ∨ StartingEdge inp s := by
  cases hd : decodeWord (sampledWord inp) with
  | ctz x => exact .inl (.inl ⟨ha, .inl ⟨x, hd⟩⟩)
  | cto x => exact .inl (.inl ⟨ha, .inr (.inl ⟨x, hd⟩)⟩)
  | gap v =>
    cases hv : valid v with
    | true => exact .inr ⟨ha, v, hd, hv⟩
    | false => exact .inl (.inl ⟨ha, .inr (.inr (.inr ⟨v, hd, hv⟩))⟩)
  | op3 v => exact .inl (.inl ⟨ha, .inr (.inr (.inl ⟨v, hd⟩))⟩)

theorem clockEdge_of_responding {inp : Input} {s : State} (h : RespondingEdge inp s) :
    ∃ r st, clockEdge inp s = .next (s.respond r st) := by
  rcases h with ⟨ha, ⟨x, hd⟩ | ⟨x, hd⟩ | ⟨v, hd⟩ | ⟨v, hd, hv⟩⟩ | ⟨hr, hs, hc⟩
  · exact ⟨_, _, by rw [clockEdge_of_accepts ha, hd, exec_ctz]⟩
  · exact ⟨_, _, by rw [clockEdge_of_accepts ha, hd, exec_cto]⟩
  · exact ⟨_, _, clockEdge_of_op3 ha hd⟩
  · exact ⟨_, _, clockEdge_gap_of_invalid hv ha hd⟩
  · exact ⟨_, _, clockEdge_of_completing hr hs hc⟩

theorem clockEdge_of_starting {inp : Input} {s : State} (h : StartingEdge inp s) :
    ∃ v, valid v = true ∧ clockEdge inp s = .next (s.startScan (stripRuns v)) := by
  obtain ⟨ha, v, hd, hv⟩ := h
  exact ⟨v, hv, clockEdge_gap_of_valid hv ha hd⟩

/-- Without reset, an edge gives a response, starts a scan, or leaves FSM and the response registers as
they are. -/
theorem clockEdge_kinds {inp : Input} {s t : State} (hr : inp.rst = false)
    (h : clockEdge inp s = .next t) :
    RespondingEdge inp s ∨ StartingEdge inp s ∨
      (t.fsm = s.fsm ∧ t.done = s.done ∧ t.status = s.status ∧ t.result = s.result) := by
  cases ha : accepts inp s with
  | true =>
    rcases responding_or_starting_of_accepts ha with hresp | hstart
    · exact .inl hresp
    · exact .inr (.inl hstart)
  | false =>
    rcases accepts_eq_false_cases ha with hr' | ⟨-, hs⟩ | ⟨-, hs, hv⟩
    · simp [hr] at hr'
    · by_cases hc : s.cur = 0
      · exact .inl (.inr ⟨hr, hs, hc⟩)
      · rw [clockEdge_of_iterating hr hs hc] at h
        cases h
        exact .inr (.inr ⟨rfl, rfl, rfl, rfl⟩)
    · rw [clockEdge_of_quiet hr hs hv] at h
      cases h
      exact .inr (.inr ⟨rfl, rfl, rfl, rfl⟩)

theorem responding_sets_done {inp : Input} {s t : State} (h : clockEdge inp s = .next t)
    (he : RespondingEdge inp s) : t.done = true ∧ t.fsm = .idle := by
  obtain ⟨r, st, ht⟩ := clockEdge_of_responding he
  rw [ht] at h
  cases h
  exact ⟨rfl, rfl⟩

/-- Starting a scan takes the last response away and leaves its number and code in place. -/
theorem starting_clears_done {inp : Input} {s t : State} (h : clockEdge inp s = .next t)
    (he : StartingEdge inp s) :
    t.done = false ∧ t.fsm = .scan ∧ t.status = s.status ∧ t.result = s.result := by
  obtain ⟨v, -, ht⟩ := clockEdge_of_starting he
  rw [ht] at h
  cases h
  exact ⟨rfl, rfl, rfl, rfl⟩

/-! ### The obligations -/

/-- Settles O34: the three kinds of edges without reset, each with what it does to the flags. -/
theorem flagsChangeOnlyWhereListed : Obligations.FlagsChangeOnlyWhereListed := by
  intro inp s t h
  refine ⟨responding_sets_done h, fun he => ?_, fun hr => ?_, fun hr => ?_⟩
  · obtain ⟨hdone, -⟩ := starting_clears_done h he
    exact hdone
  · rw [clockEdge_of_rst s hr] at h
    cases h
    exact ⟨rfl, rfl⟩
  · rcases clockEdge_kinds hr h with he | he | ⟨-, hdone, hstatus, hresult⟩
    · obtain ⟨hdone, -⟩ := responding_sets_done h he
      exact ⟨fun _ hfalse => by simp [hdone] at hfalse, fun _ _ => he, fun _ => he⟩
    · obtain ⟨hdone, -, hstatus, hresult⟩ := starting_clears_done h he
      exact ⟨fun _ _ => he, fun _ htrue => by simp [hdone] at htrue,
        fun hchange => by simp [hstatus, hresult] at hchange⟩
    · exact ⟨fun hs ht => by simp [hdone, hs] at ht, fun hs ht => by simp [hdone, hs] at ht,
        fun hchange => by simp [hstatus, hresult] at hchange⟩

/-- Settles O31: the responses command by command, then the edges of a scan. -/
theorem statusCodesHaveTheirCauses : Obligations.StatusCodesHaveTheirCauses := by
  refine ⟨⟨rfl, rfl, rfl, rfl⟩, ?_, ?_, ?_, ?_, ?_⟩
  · intro i s t h hdone
    cases i with
    | ctz x =>
      cases h
      simp
    | cto x =>
      cases h
      simp
    | gap v =>
      cases hv : valid v with
      | true =>
        rw [exec_gap_of_valid s hv] at h
        cases h
        simp at hdone
      | false =>
        rw [exec_gap_of_invalid s hv] at h
        cases h
        have hsign := (valid_eq_false_iff_sign v).1 hv
        simpa using hsign
    | op3 v =>
      cases h
      simp
  · intro v s t hv h
    rw [exec_gap_of_valid s hv] at h
    cases h
    exact ⟨rfl, rfl, rfl⟩
  · exact fun inp s hr hs hc => ⟨_, clockEdge_of_completing hr hs hc, rfl, rfl, rfl⟩
  · exact fun inp s hr hs hc => ⟨_, clockEdge_of_iterating hr hs hc, rfl, rfl, rfl⟩
  · intro n inp later s hn ha hd hl hk
    obtain ⟨t, hrun, hscan⟩ := runEdges_gap_completes hn ha hd hl hk
    exact ⟨_, hrun, rfl, rfl, hscan.maxg_toNat_eq_lbg⟩

end Sys2Proof.Machine
end

section
/-! PROOF. What every edge and every step keeps (10_state.md R22, R23; 20_memory.md R44;
41_binary_gap_scanner.md R98, R101). -/

namespace Sys2Proof.Machine

/-! ### The register bounds -/

theorem State.Legal.withHost {s : State} (h : s.Legal) (l : List HostLine) :
    (s.withHost l).Legal := h

theorem State.legal_enterReset (s : State) : s.enterReset.Legal :=
  ⟨Nat.zero_le _, Nat.zero_le _, by simp, by simp⟩

theorem State.Legal.respond {s : State} {r : U6} {st : Status} (h : s.Legal) (hr : r.toNat ≤ 32)
    (hst : st ≠ .reserved) : (s.respond r st).Legal := by
  obtain ⟨-, hmaxg, -, -⟩ := h
  exact ⟨hr, hmaxg, hst, by simp⟩

theorem State.Legal.startScan {s : State} {v : Word} (h : s.Legal) (hv : valid v = true) :
    (s.startScan (stripRuns v)).Legal := by
  obtain ⟨hresult, -, hstatus, -⟩ := h
  exact ⟨hresult, Nat.zero_le _, hstatus,
    fun _ => ⟨rfl, stripRuns_lt_of_valid hv, stripRuns_getLsbD_zero v⟩⟩

/-- An iteration measures a run within bits 29 to 0, and shifts it out. -/
theorem State.Legal.iterateGap {s : State} (h : s.Legal) (hs : s.fsm = .scan) (hc : s.cur ≠ 0) :
    (iterateGap s).Legal := by
  obtain ⟨hresult, hmaxg, hstatus, hscan⟩ := h
  obtain ⟨hdone, hlt, -⟩ := hscan hs
  refine ⟨hresult, ?_, hstatus, fun _ => ⟨hdone, ?_, stripRuns_getLsbD_zero s.cur⟩⟩
  · have hrun := ctz32_lt_of_toNat_lt hc hlt
    rw [iterateGap_maxg, maxRun_toNat _ (ctz32_le _)]
    omega
  · exact (stripRuns_toNat_le_self s.cur).trans_lt hlt

theorem State.Legal.completeGap {s : State} (h : s.Legal) : (completeGap s).Legal := by
  obtain ⟨-, hmaxg, -, -⟩ := h
  exact ⟨hmaxg.trans (by decide), hmaxg, by simp, by simp⟩

theorem State.Legal.clockEdge {inp : Input} {s t : State} (hs : s.Legal)
    (h : clockEdge inp s = .next t) : t.Legal := by
  rcases clockEdge_cases h with ⟨-, rfl⟩ | ⟨-, h⟩ | ⟨-, hfsm, rfl⟩ | ⟨-, -, -, rfl⟩
  · exact s.legal_enterReset
  · rcases exec_cases h with ⟨r, st, hst, hr, rfl⟩ | ⟨v, -, hv, rfl⟩
    · exact hs.respond hr hst
    · exact hs.startScan hv
  · by_cases hc : s.cur = 0
    · rw [scanEdge_of_zero hc]
      exact hs.completeGap
    · rw [scanEdge_of_ne hc]
      exact hs.iterateGap hfsm hc
  · exact hs

theorem AfterReset.legal {s : State} (h : AfterReset s) : s.Legal := by
  induction h with
  | reset s => exact s.legal_enterReset
  | edge inp s t _ hedge ih => exact ih.clockEdge hedge

/-! ### The scan of an operand -/

theorem State.scanInv_of_idle {s : State} (h : s.fsm = .idle) : s.ScanInv := by
  intro hs
  rw [h] at hs
  cases hs

/-- While a gap is left the scan goes on to the next, and then it answers (R98). -/
theorem State.ScansOperand.scanEdge {n : Word} {k : Nat} {s : State} (h : s.ScansOperand n k) :
    (k < gapCount n → (scanEdge s).ScansOperand n (k + 1)) ∧
      (k = gapCount n → (scanEdge s).fsm = .idle ∧ (scanEdge s).done = true ∧
        (scanEdge s).status = .ok ∧ (scanEdge s).result.toNat = lbg n) := by
  refine ⟨fun hk => ?_, ?_⟩
  · rw [scanEdge_of_ne (by rw [Ne, h.cur_eq_zero_iff]; omega)]
    exact h.iterateGap hk
  · rintro rfl
    rw [scanEdge_of_zero (h.cur_eq_zero_iff.2 rfl)]
    exact ⟨rfl, rfl, rfl, h.maxg_toNat_eq_lbg⟩

theorem State.ScansOperand.scanInv_scanEdge {n : Word} {k : Nat} {s : State}
    (h : s.ScansOperand n k) : (Machine.scanEdge s).ScanInv := by
  obtain ⟨hnext, hlast⟩ := h.scanEdge
  obtain ⟨-, hk, -⟩ := h
  rcases Nat.lt_or_eq_of_le hk with hlt | heq
  · exact fun _ => ⟨n, k + 1, hnext hlt⟩
  · obtain ⟨hidle, -⟩ := hlast heq
    exact State.scanInv_of_idle hidle

theorem State.ScanInv.clockEdge {inp : Input} {s t : State} (hs : s.ScanInv)
    (h : clockEdge inp s = .next t) : t.ScanInv := by
  rcases clockEdge_cases h with ⟨-, rfl⟩ | ⟨-, h⟩ | ⟨-, hfsm, rfl⟩ | ⟨-, -, -, rfl⟩
  · exact State.scanInv_of_idle s.enterReset_fsm
  · rcases exec_cases h with ⟨r, st, -, -, rfl⟩ | ⟨v, -, hv, rfl⟩
    · exact State.scanInv_of_idle rfl
    · exact fun _ => ⟨v, 0, State.scansOperand_startScan hv s⟩
  · obtain ⟨n, k, hscan⟩ := hs hfsm
    exact hscan.scanInv_scanEdge
  · exact hs

/-! ### Completion -/

/-- A property that every edge without reset keeps holds after any sequence of them. -/
theorem runEdges_keeps {P : State → Prop}
    (hP : ∀ (inp : Input) (s t : State), inp.rst = false → P s → clockEdge inp s = .next t → P t)
    {ins : List Input} {s t : State} (hins : noReset ins = true) (hs : P s)
    (h : runEdges ins s = .next t) : P t := by
  induction ins generalizing s with
  | nil =>
    cases h
    exact hs
  | cons inp ins ih =>
    obtain ⟨hr, hins⟩ := noReset_cons.1 hins
    obtain ⟨u, hu⟩ := clockEdge_total inp s
    rw [runEdges_cons hu] at h
    exact ih hins (hP inp s u hr hs hu) h

/-- No scan is in progress exactly when the last command's response is there. -/
def State.IdleIffDone (s : State) : Prop := s.fsm = .idle ↔ s.done = true

theorem idleIffDone_of_responding {inp : Input} {s t : State} (h : clockEdge inp s = .next t)
    (he : RespondingEdge inp s) : t.IdleIffDone := by
  obtain ⟨hdone, hidle⟩ := responding_sets_done h he
  exact iff_of_true hidle hdone

theorem idleIffDone_of_starting {inp : Input} {s t : State} (h : clockEdge inp s = .next t)
    (he : StartingEdge inp s) : t.IdleIffDone := by
  obtain ⟨hdone, hscan, -⟩ := starting_clears_done h he
  exact iff_of_false (by simp [hscan]) (by simp [hdone])

theorem idleIffDone_of_accepts {inp : Input} {s t : State} (ha : accepts inp s = true)
    (h : clockEdge inp s = .next t) : t.IdleIffDone := by
  rcases responding_or_starting_of_accepts ha with he | he
  · exact idleIffDone_of_responding h he
  · exact idleIffDone_of_starting h he

theorem State.IdleIffDone.clockEdge {inp : Input} {s t : State} (hr : inp.rst = false)
    (hs : s.IdleIffDone) (h : clockEdge inp s = .next t) : t.IdleIffDone := by
  rcases clockEdge_kinds hr h with he | he | ⟨hfsm, hdone, -⟩
  · exact idleIffDone_of_responding h he
  · exact idleIffDone_of_starting h he
  · rwa [State.IdleIffDone, hfsm, hdone]

/-! ### The obligations -/

/-- Settles O36. -/
theorem legalAtReset : Obligations.LegalAtReset :=
  ⟨State.reset.legal_enterReset, State.legal_enterReset⟩

/-- Settles O37: a step is an edge on the state with the host's lines moved on, which the bounds do not
speak of. -/
theorem everyStepKeepsLegal : Obligations.EveryStepKeepsLegal :=
  ⟨fun _ _ _ hs h => hs.clockEdge h, fun s _ hs h => (hs.withHost s.hostLeft).clockEdge h⟩

/-- Settles O38: the states after a reset are legal. -/
theorem registersBoundedAfterReset : Obligations.RegistersBoundedAfterReset := by
  intro s hs
  obtain ⟨hresult, hmaxg, hstatus, hscan⟩ := hs.legal
  refine ⟨hresult, hmaxg, hstatus, fun h => hstatus (State.status_of_response_reservedStatus h),
    fun h => ?_⟩
  obtain ⟨hdone, -⟩ := hscan h
  exact hdone

/-- Settles O39: FSM and DONE agree from the first accept on, at each edge without reset. -/
theorem earlierCommandCompletesBeforeNext : Obligations.EarlierCommandCompletesBeforeNext := by
  intro first later s t ha hl h
  obtain ⟨u, hu⟩ := clockEdge_total first s
  rw [runEdges_cons hu] at h
  have hdone : t.IdleIffDone := runEdges_keeps (fun _ _ _ hr hs => hs.clockEdge hr) hl
    (idleIffDone_of_accepts ha hu) h
  refine ⟨hdone, fun next hnext => ?_⟩
  obtain ⟨-, -, hidle⟩ := (accepts_iff next t).1 hnext
  exact hdone.1 hidle

/-- Settles O53. -/
theorem scanInvariantAtReset : Obligations.ScanInvariantAtReset :=
  ⟨State.scanInv_of_idle State.reset_fsm, fun s => State.scanInv_of_idle s.enterReset_fsm⟩

/-- Settles O54: a scan starts as that of the accepted operand, and each of its edges without reset
measures the next gap or answers. -/
theorem everyStepKeepsScanOfAnOperand : Obligations.EveryStepKeepsScanOfAnOperand := by
  refine ⟨fun _ _ _ hs h => hs.clockEdge h, fun s t hs h => ?_, fun n k inp s h hr => ?_⟩
  · have hmoved : (s.withHost s.hostLeft).ScanInv := hs
    exact hmoved.clockEdge h
  · have hedge := h.scanEdge
    obtain ⟨-, -, hfsm, -⟩ := h
    exact ⟨_, clockEdge_of_scan hr hfsm, hedge⟩

end Sys2Proof.Machine
end

section
/-! PROOF. The algorithm, the latency of the commands, and what the leftover scan registers cannot show
(41_binary_gap_scanner.md R93; 70_reset_and_hazards.md R142; 10_state.md R24, R31, R32). -/

namespace Sys2Proof.Machine

/-! ### The algorithm -/

/-- The loop at the cursor of the `k`th gap, with the first `k` gaps measured, measures the rest. -/
theorem lbgLoop_cursorAtGap (n : Word) {fuel k : Nat} (hk : k ≤ gapCount n)
    (hfuel : gapCount n ≤ k + fuel) :
    lbgLoop fuel (cursorAtGap n k) (longestOf ((gapLengths n).take k)) = lbg n := by
  induction fuel generalizing k with
  | zero =>
    obtain rfl : k = gapCount n := by omega
    exact longestOf_take_gapCount n
  | succ fuel ih =>
    rw [lbgLoop]
    split
    · next hc =>
      obtain rfl : k = gapCount n := hk.antisymm ((cursorAtGap_eq_zero_iff n k).1 hc)
      exact longestOf_take_gapCount n
    · next hc =>
      have hlt : k < gapCount n := by
        rw [cursorAtGap_eq_zero_iff] at hc
        omega
      rw [stripRuns_cursorAtGap, ← longestOf_take_succ hlt]
      exact ih hlt (by omega)

theorem lbgAlg_eq_lbg_of_gapCount_le {n : Word} (h : gapCount n ≤ Config.scanFuel) :
    lbgAlg n = lbg n := by
  rw [lbgAlg, ← cursorAtGap_zero]
  exact lbgLoop_cursorAtGap n (Nat.zero_le _) (by omega)

/-! ### Latency -/

theorem noReset_take {ins : List Input} (h : noReset ins = true) (k : Nat) :
    noReset (ins.take k) = true :=
  noReset_iff.2 fun inp hinp => noReset_iff.1 h inp (List.mem_of_mem_take hinp)

/-! ### What CUR and MAXG hold while no scan is in progress -/

/-- `u` is `s`, but for what is left in the scan registers when no scan is in progress. -/
def SameButLeftover (s u : State) : Prop :=
  u = s ∨ (s.fsm = .idle ∧ ∃ c m, u = s.setScan c m)

/-- A response leaves the scan registers as they were, and the start of a scan overwrites both. -/
theorem exec_sameButLeftover (i : Instr) (s : State) (c : Word) (m : U6) :
    ∃ t u, exec i s = .next t ∧ exec i (s.setScan c m) = .next u ∧ SameButLeftover t u := by
  rcases exec_uniform i with ⟨r, st, h⟩ | ⟨d, h⟩
  · exact ⟨_, _, h s, h _, .inr ⟨rfl, c, m, rfl⟩⟩
  · exact ⟨_, _, h s, h _, .inl rfl⟩

theorem SameButLeftover.clockEdge {s u : State} (h : SameButLeftover s u) (inp : Input) :
    ∃ t w, clockEdge inp s = .next t ∧ clockEdge inp u = .next w ∧ SameButLeftover t w := by
  rcases h with rfl | ⟨hs, c, m, rfl⟩
  · obtain ⟨t, ht⟩ := clockEdge_total inp u
    exact ⟨t, t, ht, ht, .inl rfl⟩
  · cases ha : accepts inp s with
    | true =>
      have ha' : accepts inp (s.setScan c m) = true := ha
      rw [clockEdge_of_accepts ha, clockEdge_of_accepts ha']
      exact exec_sameButLeftover _ s c m
    | false =>
      rcases accepts_eq_false_cases ha with hr | ⟨-, hscan⟩ | ⟨hr, -, hv⟩
      · exact ⟨_, _, clockEdge_of_rst s hr, clockEdge_of_rst _ hr, .inl rfl⟩
      · simp [hs] at hscan
      · exact ⟨_, _, clockEdge_of_quiet hr hs hv, clockEdge_of_quiet hr hs hv, .inr ⟨hs, c, m, rfl⟩⟩

theorem SameButLeftover.runEdges {s u : State} (h : SameButLeftover s u) (ins : List Input) :
    ∃ t w, runEdges ins s = .next t ∧ runEdges ins u = .next w ∧ SameButLeftover t w := by
  induction ins generalizing s u with
  | nil => exact ⟨s, u, rfl, rfl, h⟩
  | cons inp ins ih =>
    obtain ⟨t, w, ht, hw, htw⟩ := h.clockEdge inp
    rw [runEdges_cons ht, runEdges_cons hw]
    exact ih htw

/-! ### The obligations -/

/-- Settles O42: the loop goes from gap to gap, of which there are fewer than its bound. -/
theorem algorithmComputesLongestGap : Obligations.AlgorithmComputesLongestGap :=
  fun _ hn => lbgAlg_eq_lbg_of_gapCount_le ((gapCount_le_of_valid hn).trans (by decide))

/-- Settles O48: a command is answered at its accepting edge, or two edges after the last of its at most
15 gaps. -/
theorem acceptedCommandsCompleteInSeventeenEdges :
    Obligations.AcceptedCommandsCompleteInSeventeenEdges := by
  intro inp later s ha hl hlen
  rcases responding_or_starting_of_accepts ha with he | ⟨-, n, hd, hn⟩
  · obtain ⟨r, st, h⟩ := clockEdge_of_responding he
    refine ⟨0, _, by decide, ?_, s.respond_done r st, s.respond_fsm r st⟩
    rw [List.take_zero, runEdges_singleton, h]
  · have hmax : Config.maxLatency = 17 := rfl
    have hcount := gapCount_le_of_valid hn
    have htake : (later.take (gapCount n + 1)).length = gapCount n + 1 :=
      List.length_take_of_le (by omega)
    obtain ⟨t, hrun, -⟩ := runEdges_gap_completes hn ha hd (noReset_take hl _) htake
    exact ⟨_, _, by omega, hrun, rfl, rfl⟩

/-- Settles O50: two such states stay the same but for leftover scan registers, which no port and no
response shows. -/
theorem leftoverScanRegistersAreNeverSeen : Obligations.LeftoverScanRegistersAreNeverSeen := by
  intro ins s c m hs
  have hstart : SameButLeftover s (s.setScan c m) := .inr ⟨hs, c, m, rfl⟩
  obtain ⟨t, u, ht, hu, htu⟩ := hstart.runEdges ins
  refine ⟨t, u, ht, hu, ?_⟩
  rcases htu with rfl | ⟨hidle, c', m', rfl⟩
  · exact ⟨rfl, rfl, fun _ => ⟨rfl, rfl⟩⟩
  · exact ⟨rfl, rfl, fun hscan => by simp [hidle] at hscan⟩

end Sys2Proof.Machine
end

section
/-! PROOF. The lines of a host program and the programs of one `run` line (30_encoding.md R57, R58;
70_reset_and_hazards.md R141). -/

namespace Sys2Proof.Machine

/-! ### The current line -/

theorem takesNoCycle_wait_of_done {s : State} (hd : s.done = true) (hs : s.fsm = .idle) :
    takesNoCycle s .wait = true := by simp [takesNoCycle, hd, hs]

theorem takesNoCycle_wait_eq_false {s : State} (h : s.done = false ∨ s.fsm = .scan) :
    takesNoCycle s .wait = false := by
  rcases h with h | h <;> simp [takesNoCycle, h]

/-- A line that uses a cycle is the one that decides its inputs and what is left. -/
theorem hostInput_hostLeft_of_current {s : State} {l : HostLine} {rest : List HostLine}
    (h : s.host = l :: rest) (hl : takesNoCycle s l = false) :
    s.hostInput = lineInput l ∧ s.hostLeft = lineLeft s l ++ rest :=
  ⟨hostInput_of_pending (pending_of_not_takesNoCycle h hl),
    hostLeft_of_pending (pending_of_not_takesNoCycle h hl)⟩

theorem step_of_current {s : State} {l : HostLine} {rest : List HostLine}
    (h : s.host = l :: rest) (hl : takesNoCycle s l = false) :
    step s = clockEdge (lineInput l) (s.withHost (lineLeft s l ++ rest)) := by
  obtain ⟨hin, hleft⟩ := hostInput_hostLeft_of_current h hl
  rw [step_eq_clockEdge, hin, hleft]

/-- Which lines use no cycle does not depend on the lines themselves. -/
theorem pending_withHost (s : State) (l : List HostLine) :
    (s.withHost l).pending = l.dropWhile (takesNoCycle s) := rfl

/-- A line that uses no cycle is as if it were not there. -/
theorem step_of_takesNoCycle {s : State} {l : HostLine} {rest : List HostLine}
    (h : s.host = l :: rest) (hl : takesNoCycle s l = true) :
    step s = step (s.withHost rest) := by
  have hpending : s.pending = (s.withHost rest).pending :=
    (pending_of_takesNoCycle h hl).trans (pending_withHost s rest).symm
  have hin : s.hostInput = (s.withHost rest).hostInput := by
    rw [State.hostInput, State.hostInput, hpending]
  have hleft : s.hostLeft = (s.withHost rest).hostLeft := by
    rw [State.hostLeft, State.hostLeft, hpending]
    rfl
  rw [step_eq_clockEdge, step_eq_clockEdge, hin, hleft, State.withHost_withHost]

theorem lineLeft_command_of_idle {s : State} (i : Instr) (hs : s.fsm = .idle) :
    lineLeft s (.command i) = [] := if_pos hs

theorem lineLeft_command_of_scan {s : State} (i : Instr) (hs : s.fsm = .scan) :
    lineLeft s (.command i) = [.command i] := if_neg (by simp [hs])

/-! ### Steps that accept a command -/

theorem step_of_offer {s : State} (hs : s.fsm = .idle) (hr : s.hostInput.rst = false)
    (hv : s.hostInput.cmdValid = true) :
    step s = exec (decodeWord (sampledWord s.hostInput)) (s.withHost s.hostLeft) :=
  clockEdge_of_accepts ((accepts_iff _ _).2 ⟨hr, hv, hs⟩)

theorem step_of_command {s : State} {i : Instr} {rest : List HostLine} (hs : s.fsm = .idle)
    (h : s.host = .command i :: rest) : step s = exec i (s.withHost rest) := by
  rw [step_of_current h rfl, lineLeft_command_of_idle i hs]
  exact clockEdge_offerInput i hs

theorem step_of_drive {s : State} {inp : Input} {rest : List HostLine}
    (h : s.host = .drive inp :: rest) : step s = clockEdge inp (s.withHost rest) :=
  step_of_current h rfl

@[simp] theorem sampledWord_wordInput (w : Nat) :
    sampledWord (wordInput w) = BitVec.ofNat 34 w :=
  CommandWord.ofFields_op_operand _

theorem decode_eq_ok {w : Nat} {i : Instr} (h : decode w = .ok i) :
    decodeWord (BitVec.ofNat 34 w) = i := by
  rcases Nat.lt_or_ge w (2 ^ 34) with hlt | hge
  · rw [decode_of_lt hlt] at h
    exact Except.ok.inj h
  · rw [decode_of_le hge] at h
    cases h

theorem decode_of_decodeTableWord {nbits w : Nat} {i : Instr}
    (h : decodeTableWord nbits w = some i) : decode (w % 2 ^ nbits) = .ok i := by
  unfold decodeTableWord at h
  split at h
  · next j hj => rw [hj, Option.some.inj h]
  · cases h

/-- Offering a word from IDLE and using up the line that offers it changes nothing else. -/
theorem State.offeringWord_withHost {s : State} (hs : s.fsm = .idle) (w : Nat) :
    (s.offeringWord w).withHost s.host = s :=
  State.ext_fields hs.symm rfl rfl rfl rfl rfl rfl

theorem step_withFetchWord {s : State} {nbits w : Nat} {i : Instr} (hs : s.fsm = .idle)
    (h : decodeTableWord nbits w = some i) : step (s.withFetchWord nbits w) = exec i s := by
  have hword := decode_eq_ok (decode_of_decodeTableWord h)
  rw [State.withFetchWord, step_of_drive (inp := wordInput (w % 2 ^ nbits)) rfl,
    State.offeringWord_withHost hs, clockEdge_of_accepts ((accepts_iff _ _).2 ⟨rfl, rfl, hs⟩),
    sampledWord_wordInput, hword]

/-! ### Running a program -/

theorem runProgram_of_ended {s : State} (h : s.programEnded = true) (fuel : Nat) :
    runProgram fuel s = some (0, s.withHost []) := by
  cases fuel <;> simp [runProgram, h]

theorem programEnded_of_current {s : State} {l : HostLine} {rest : List HostLine}
    (h : s.host = l :: rest) (hl : takesNoCycle s l = false) : s.programEnded = false := by
  rw [State.programEnded, pending_of_not_takesNoCycle h hl]
  rfl

/-- A step that leads to an end after `k` cycles is the first of `k + 1`. -/
theorem runProgram_of_step {s t u : State} {fuel k : Nat} (he : s.programEnded = false)
    (hstep : step s = .next t) (hrun : runProgram fuel t = some (k, u)) :
    runProgram (fuel + 1) s = some (k + 1, u) := by
  simp [runProgram, he, hstep, hrun]

/-- A program whose last line is a `wait` ends when the response is there. -/
theorem runProgram_wait_of_done {s : State} (h : s.host = [.wait]) (hd : s.done = true)
    (hs : s.fsm = .idle) (fuel : Nat) : runProgram fuel s = some (0, s.withHost []) := by
  refine runProgram_of_ended ?_ fuel
  rw [State.programEnded, pending_of_takesNoCycle h (takesNoCycle_wait_of_done hd hs)]
  rfl

/-- An unfinished `wait` offers nothing and stays. -/
theorem runProgram_of_waiting {s t u : State} {fuel k : Nat} (h : s.host = [.wait])
    (hd : s.done = false) (hedge : clockEdge quietInput s = .next t)
    (hrun : runProgram fuel t = some (k, u)) : runProgram (fuel + 1) s = some (k + 1, u) := by
  have hcycle := takesNoCycle_wait_eq_false (.inl hd)
  refine runProgram_of_step (programEnded_of_current h hcycle) ?_ hrun
  rw [step_of_current h hcycle, ← hedge]
  exact congrArg (clockEdge quietInput) (congrArg s.withHost h.symm)

theorem State.ScansOperand.completeGap_response {n : Word} {s : State}
    (h : s.ScansOperand n (gapCount n)) :
    (completeGap s).response = .answer (BitVec.ofNat 6 (lbg n)) := by
  simp [← h.maxg_toNat_eq_lbg]

theorem State.ScansOperand.done_eq_false {n : Word} {k : Nat} {s : State}
    (h : s.ScansOperand n k) : s.done = false := by
  obtain ⟨-, -, -, hdone, -⟩ := h
  exact hdone

/-- While a scan runs, a `wait` lasts for the gaps that are left and the completing edge. -/
theorem State.ScansOperand.runProgram_wait {n : Word} {k left : Nat} {s : State}
    (h : s.ScansOperand n k) (hhost : s.host = [.wait]) (hk : k + left = gapCount n) (fuel : Nat) :
    ∃ t, runProgram (fuel + left + 1) s = some (left + 1, t) ∧
      t.response = .answer (BitVec.ofNat 6 (lbg n)) := by
  induction left generalizing k s with
  | zero =>
    obtain rfl : k = gapCount n := hk
    have hend := runProgram_wait_of_done (s := completeGap s) hhost rfl rfl fuel
    exact ⟨_, runProgram_of_waiting hhost h.done_eq_false (h.clockEdge_completes rfl) hend,
      h.completeGap_response⟩
  | succ left ih =>
    have hlt : k < gapCount n := by omega
    obtain ⟨t, hrun, ht⟩ := ih (h.iterateGap hlt) hhost (by omega)
    exact ⟨t, runProgram_of_waiting hhost h.done_eq_false (h.clockEdge_iterates hlt rfl) hrun, ht⟩

/-- The lines of `run` offer the command first (R58). -/
theorem runProgram_of_run {i : Instr} {s t u : State} {fuel k : Nat} (hs : s.fsm = .idle)
    (h : exec i (s.withHost [.wait]) = .next t) (hrun : runProgram fuel t = some (k, u)) :
    runProgram (fuel + 1) (s.withHost [.command i, .wait]) = some (k + 1, u) := by
  have hstep := step_of_command (s := s.withHost [.command i, .wait]) hs rfl
  exact runProgram_of_step (programEnded_of_current rfl rfl) (hstep.trans h) hrun

/-- A command that is answered at its accepting edge leaves nothing to wait for. -/
theorem runProgram_run_of_respond {i : Instr} {r : U6} {st : Status} {s : State}
    (hs : s.fsm = .idle) (h : ∀ u, exec i u = .next (u.respond r st)) (fuel : Nat) :
    runProgram (fuel + 1) (s.withHost [.command i, .wait]) =
      some (1, (s.respond r st).withHost []) :=
  runProgram_of_run hs (h _)
    (runProgram_wait_of_done (s := (s.withHost [.wait]).respond r st) rfl rfl rfl fuel)

/-- A valid `gap` takes its accepting edge, one edge for each gap and the completing edge (R100). -/
theorem runProgram_run_of_valid {n : Word} {s : State} (hn : valid n = true) (hs : s.fsm = .idle)
    (fuel : Nat) :
    ∃ t, runProgram (fuel + gapCount n + 2) (s.withHost [.command (.gap n), .wait]) =
        some (gapCount n + 2, t) ∧
      t.response = .answer (BitVec.ofNat 6 (lbg n)) := by
  have hscan := State.scansOperand_startScan hn (s.withHost [.wait])
  obtain ⟨t, hrun, ht⟩ := hscan.runProgram_wait rfl (Nat.zero_add _) fuel
  exact ⟨t, runProgram_of_run hs (exec_gap_of_valid _ hn) hrun, ht⟩

/-! ### The obligations -/

/-- Settles O18: in each case the edge accepts the command offered. -/
theorem stepRunsDecodedCommand : Obligations.StepRunsDecodedCommand :=
  ⟨fun _ => step_of_offer, fun _ _ _ => step_of_command, fun _ _ _ _ => step_withFetchWord⟩

/-- Settles O51: a line that uses no cycle is skipped, and any other is the current one. -/
theorem hostLinesDriveTheirInputs : Obligations.HostLinesDriveTheirInputs := by
  intro s rest
  refine ⟨fun i h => ?_, fun h => ?_, fun k h => ?_, fun h => step_of_takesNoCycle h rfl,
    fun h hd hs => step_of_takesNoCycle h (takesNoCycle_wait_of_done hd hs), fun h hwait => ?_,
    fun inp h => hostInput_hostLeft_of_current h rfl, fun h => ?_⟩
  · obtain ⟨hin, hleft⟩ := hostInput_hostLeft_of_current h rfl
    rw [hin, hleft, h]
    refine ⟨rfl, rfl, CommandWord.op_ofFields _ _, CommandWord.operand_ofFields _ _,
      fun hs => ?_, fun hs => ?_⟩
    · rw [lineLeft_command_of_idle i hs, List.nil_append]
    · rw [lineLeft_command_of_scan i hs, List.singleton_append]
  · obtain ⟨hin, hleft⟩ := hostInput_hostLeft_of_current h rfl
    rw [hin, hleft]
    exact ⟨rfl, rfl, rfl⟩
  · obtain ⟨hin, hleft⟩ := hostInput_hostLeft_of_current h rfl
    rw [hin, hleft]
    exact ⟨rfl, rfl, rfl⟩
  · obtain ⟨hin, hleft⟩ := hostInput_hostLeft_of_current h (takesNoCycle_wait_eq_false hwait)
    rw [hin, hleft, h]
    exact ⟨rfl, rfl, rfl⟩
  · have hpending : s.pending = [] := by rw [State.pending, h, List.dropWhile_nil]
    exact ⟨hostInput_of_ended hpending, hostLeft_of_ended hpending⟩

/-- Settles O52: one cycle for a command answered at its accept, and for a valid `gap` the cycles of its
scan besides, which the 17 given are enough for. -/
theorem runProgramsEndWithTheirResponse : Obligations.RunProgramsEndWithTheirResponse := by
  intro v s _ hs
  refine ⟨⟨_, runProgram_run_of_respond hs (exec_ctz _) 16, rfl⟩,
    ⟨_, runProgram_run_of_respond hs (exec_cto _) 16, rfl⟩,
    ⟨_, runProgram_run_of_respond hs (exec_op3 _) 16, rfl⟩,
    fun hn => ⟨_, runProgram_run_of_respond hs (exec_gap_of_invalid · hn) 16, rfl⟩, fun hn => ?_⟩
  have hcount := gapCount_le_of_valid hn
  have hfuel : 15 - gapCount (literalOperand v) + gapCount (literalOperand v) + 2 =
      Config.maxLatency := by
    rw [Nat.sub_add_cancel hcount, Config.maxLatency]
  rw [← hfuel]
  exact runProgram_run_of_valid hn hs _

end Sys2Proof.Machine
end
